-- ==== Sys2Proof/Word.lean ====
section
/-! DEFINITION. The word types of the machine: the byte, the program counter and the register index. -/

namespace Sys2Proof

/-- An 8-bit unsigned value: a register, a memory cell, an opcode or an operand byte (R10). -/
abbrev Byte := BitVec 8

/-- The program counter's type: 9 bits, so that 256 can be held (R24; the spec's decision D1, log 5). -/
abbrev Pc := BitVec 9

/-- The index of one of the 8 general registers (R21). -/
abbrev RegIdx := Fin 8

end Sys2Proof
end

