-- ==== Sys2Proof/Config.lean ====
section
/-! DEFINITION. The parameters of the hardware and the values they take (R5). None is left open: the spec settles every point its
source leaves open (92_eei_decisions.md D1 to D21), so there is no free value here. -/

namespace Sys2Proof.Config

/-- `MEM_SIZE`: the number of memory cells (R5, R40; D19). -/
def memSize : Nat := 256

/-- `NUM_REGS`: the number of general registers (R5, R21). -/
def numRegs : Nat := 8

/-- `SP`: the index of the register that is the stack pointer (R5, R22). -/
def sp : RegIdx := 7

/-- `SP_INIT`: the reset value of register 7 (R5, R35). -/
def spInit : Byte := 0xF4

/-- The reset value of registers 0 to 6 (R5, R35). -/
def regInit : Byte := 0x00

/-- The reset value of the program counter, the entry point (R5, R35). -/
def pcInit : Pc := 0

/-- The reset value of the flags (R35; the spec's decision D2, log 6). -/
def flInit : Byte := 0x00

/-- What a memory cell holds when nothing has been placed there since reset (R35, R44). -/
def memInit : Byte := 0x00

/-- The address at which the image is placed (R5, R181). -/
def loadAddress : Nat := 0

/-- The length of the longest instruction, in bytes (R60). -/
def maxLength : Nat := 3

end Sys2Proof.Config
end

