-- ==== Sys2Proof/Machine/State.lean ====
section
/-! DEFINITION. The whole state of the machine as plain data (R20), the reasons a step can stop, and the state after reset. -/

namespace Sys2Proof.Machine

/-- The run state (R28). -/
inductive RunState where
  | running
  | halted
  deriving DecidableEq, Repr

/-- The halt cause (R29): why the machine is HALTED, `none` while it runs. -/
inductive Cause where
  | none
  | halt
  | illegalInstruction
  | invalidRegister
  | outOfBounds
  | runawayProgram
  deriving DecidableEq, Repr

/-- The halt information (R30): an integer, or a pair for IllegalInstruction. -/
inductive Info where
  /-- An integer: 0, an operand byte, an address or a program counter. -/
  | int (n : Int)
  /-- The offending opcode byte and the `pc` it was fetched from. -/
  | opcodeAt (op : Byte) (pc : Pc)
  deriving DecidableEq, Repr

/-- A fatal condition with its information (R150, R151). Taking one is `raise` of Machine/Ops.lean, a next state (R156). -/
inductive Fatal where
  /-- The opcode byte at `pc` is not one of the 14 defined values (R152). -/
  | illegalInstruction (op : Byte) (pc : Pc)
  /-- An operand byte that names a register is 8 to 255 (R154). -/
  | invalidRegister (operand : Byte)
  /-- An address or a stack-pointer value outside 0 to 255 is produced (R153). -/
  | outOfBounds (addr : Int)
  /-- `pc` is outside memory at the start of a step (R155). -/
  | runawayProgram (pc : Pc)
  deriving DecidableEq, Repr

/-- The memory (R32, R40): the cells that differ from what an unlisted address reads as, by rising address. `Memory.wf` of
Machine/Ops.lean is that form; an unlisted address reads as `Config.memInit` (log 4). -/
abbrev Memory := List Host.Cell

/-- The eight components of the machine's state, and nothing else (R20). -/
structure State where
  /-- The 8 general registers; register 7 is also the stack pointer (R21, R22). -/
  regs : Vector Byte 8
  /-- The program counter, 0 to 256 (R24). -/
  pc : Pc
  /-- The flags byte, layout 00000LGE (R27). -/
  fl : Byte
  /-- The memory of 256 bytes (R32). -/
  mem : Memory
  /-- The run state (R28). -/
  run : RunState
  /-- The halt cause (R29). -/
  cause : Cause
  /-- The halt information (R30). -/
  info : Info
  /-- The output stream, oldest value first (R31). -/
  out : List Byte
  deriving DecidableEq, Repr

/-- Reasons for a step to stop without a next state: there is none. Each of the machine's fatal conditions has an entry the spec
describes (R156) and is taken as a next state whose `run` is HALTED, so no meaning and no step raises a fault (log 1). An empty
type is safe: nothing can be claimed of a fault. -/
inductive Fault where
  deriving DecidableEq, Repr

/-- Reasons to give an instruction no meaning. -/
inductive Refusal where
  /-- Raised by an arm of `exec` whose instruction has no meaning yet; no arm does so now. Safe: a claim about such an instruction
  cannot be proved. -/
  | notModelled (mnemonic : String)
  deriving DecidableEq, Repr

/-- The machine right after a reset with the empty image: every component at the value of R35. `resetWith` of Machine/Reset.lean is
the reset with an image (R180, R181; log 3). -/
def State.reset : State where
  regs := #v[Config.regInit, Config.regInit, Config.regInit, Config.regInit, Config.regInit, Config.regInit, Config.regInit,
    Config.spInit]
  pc := Config.pcInit
  fl := Config.flInit
  mem := []
  run := .running
  cause := .none
  info := .int 0
  out := []

end Sys2Proof.Machine
end

