-- ==== Sys2Proof/Machine/Ops.lean ====
section
/-! DEFINITION. The named operations over memory, registers, the program counter, the output stream and the run state (R11), taking
a fatal condition (R156), and the stack pointer's two operations (R110, R111). -/

namespace Sys2Proof.Machine

/-! ### Memory as data -/

/-- The canonical form: addresses strictly rising, all of them inside the address space, and no entry equal to what an unlisted
address reads as. -/
abbrev Memory.wf (m : Memory) : Prop :=
  m.Pairwise (fun c d => c.1 < d.1) ∧ ∀ c ∈ m, c.1 < Config.memSize ∧ c.2 ≠ Config.memInit

/-- `M[a]`: the cell at an address; an unlisted one holds its reset value (R35, R44). -/
def Memory.read : Memory → Nat → Byte
  | [], _ => Config.memInit
  | (b, v) :: m, a => if b = a then v else Memory.read m a

/-- The memory without an entry for this address. -/
def Memory.erase (m : Memory) (a : Nat) : Memory := m.filter fun c => c.1 ≠ a

/-- Places an entry before the first entry of a higher address. -/
def Memory.insert : Memory → Nat → Byte → Memory
  | [], a, v => [(a, v)]
  | c :: m, a, v => if a < c.1 then (a, v) :: c :: m else c :: Memory.insert m a v

/-- `M[a] <- v`, keeping the canonical form: the value an unlisted address reads as is not listed. -/
def Memory.write (m : Memory) (a : Nat) (v : Byte) : Memory :=
  if v = Config.memInit then Memory.erase m a else Memory.insert (Memory.erase m a) a v

/-- Places bytes at ascending addresses from `a`, stopping at the end of the bytes or at the memory's capacity, whichever comes
first (R181). -/
def Memory.place : Memory → Nat → List Byte → Memory
  | m, _, [] => m
  | m, a, v :: vs => if a < Config.memSize then Memory.place (Memory.write m a v) (a + 1) vs else m

/-! ### Updates of one component of the state -/

/-- `x[i]` (R11, R21). -/
def State.reg (s : State) (i : RegIdx) : Byte := s.regs[i]

/-- `x[i] <- v`; no register is hard-wired (R11, R21). -/
def State.setReg (s : State) (i : RegIdx) (v : Byte) : State := { s with regs := s.regs.set i v }

/-- The stack pointer, `x[7]` (R22). -/
def State.sp (s : State) : Byte := s.reg Config.sp

/-- `x[7] <- v` (R22). -/
def State.setSp (s : State) (v : Byte) : State := s.setReg Config.sp v

/-- `pc <- t` (R11). -/
def State.setPc (s : State) (t : Pc) : State := { s with pc := t }

/-- `pc <- pc + n`: the sequential advance, a 9-bit addition that is not reduced modulo 256 (R24, R92). -/
def State.advance (s : State) (n : Nat) : State := s.setPc (s.pc + BitVec.ofNat 9 n)

/-- `FL <- v`: writes all 8 bits (R11). -/
def State.setFl (s : State) (v : Byte) : State := { s with fl := v }

/-- The state with another memory. -/
def State.setMem (s : State) (m : Memory) : State := { s with mem := m }

/-- `emit(v)`: appends a value to the output stream (R11, R31). -/
def State.emit (s : State) (v : Byte) : State := { s with out := s.out ++ [v] }

/-- The transition to HALTED, with its cause and information (R28 to R30). -/
def State.stop (s : State) (c : Cause) (i : Info) : State := { s with run := .halted, cause := c, info := i }

/-- `halt()`: the normal stop of HLT; `pc` is unchanged (R11, R142). -/
def State.halt (s : State) : State := s.stop .halt (.int 0)

/-! ### Taking a fatal condition -/

/-- The halt cause a fatal condition records (R29, R151). -/
def Fatal.cause : Fatal → Cause
  | .illegalInstruction _ _ => .illegalInstruction
  | .invalidRegister _ => .invalidRegister
  | .outOfBounds _ => .outOfBounds
  | .runawayProgram _ => .runawayProgram

/-- The halt information a fatal condition records (R30, R151). -/
def Fatal.info : Fatal → Info
  | .illegalInstruction op pc => .opcodeAt op pc
  | .invalidRegister b => .int b.toNat
  | .outOfBounds addr => .int addr
  | .runawayProgram pc => .int pc.toNat

/-- `raise C(info)` (R11, R156): taken on the state BEFORE the step, so that no register, program counter, flag, memory or output
write of the step takes effect; then `run`, `cause` and `info` are set. There is no return from it (R163). -/
def raise (f : Fatal) (s : State) : State := s.stop f.cause f.info

/-- The end of a step that began in `s`: all of its writes take effect together, or it raised and none does (R80 part 7, R156). -/
def commit (s : State) (r : Except Fatal State) : Host.Outcome State Fault Refusal :=
  match r with
  | .ok t => .next t
  | .error f => .next (raise f s)

/-! ### Memory accesses and the stack pointer -/

/-- An address outside 0 to 255 (R44, R45). -/
def outside (addr : Int) : Bool := addr < 0 || addr > 255

/-- `MemRead(addr, 1)`, the address a mathematical integer (R44). -/
def memRead (addr : Int) (s : State) : Except Fatal Byte :=
  if outside addr then .error (.outOfBounds addr) else .ok (Memory.read s.mem addr.toNat)

/-- `MemWrite(addr, 1, v)`, the address a mathematical integer (R45). -/
def memWrite (addr : Int) (v : Byte) (s : State) : Except Fatal State :=
  if outside addr then .error (.outOfBounds addr) else .ok (s.setMem (Memory.write s.mem addr.toNat v))

/-- The address in the stack pointer, as a mathematical integer (R22). -/
def State.stackAddr (s : State) : Int := (s.sp.toNat : Int)

/-- `SpDec()`: the decrement of a push; it does not wrap (R110; the spec's decision D6). -/
def spDec (s : State) : Except Fatal State :=
  let t := s.stackAddr - 1
  if t < 0 then .error (.outOfBounds t) else .ok (s.setSp (BitVec.ofInt 8 t))

/-- `SpInc()`: the increment of a pop; it does not wrap (R111; the spec's decision D6). -/
def spInc (s : State) : Except Fatal State :=
  let t := s.stackAddr + 1
  if t > 255 then .error (.outOfBounds t) else .ok (s.setSp (BitVec.ofInt 8 t))

/-- The write of a push, at the stack pointer as the decrement left it (R110). -/
def storeTop (v : Byte) (s : State) : Except Fatal State := memWrite s.stackAddr v s

/-- The read of a pop, at the stack pointer before the increment (R111); memory is not changed (R55). -/
def loadTop (s : State) : Except Fatal Byte := memRead s.stackAddr s

end Sys2Proof.Machine
end

