-- ==== Sys2Proof/Machine/Flags.lean ====
section
/-! DEFINITION. The flags byte: its three bits and the value CMP computes (R27, R103). -/

namespace Sys2Proof.Machine

/-- `FL[0]`, E (Equal): the only flag an instruction reads (R27). -/
def State.flagE (s : State) : Bool := s.fl.getLsbD 0

/-- `FL[1]`, G (Greater); no instruction reads it (R27). -/
def State.flagG (s : State) : Bool := s.fl.getLsbD 1

/-- `FL[2]`, L (Less); no instruction reads it (R27). -/
def State.flagL (s : State) : Bool := s.fl.getLsbD 2

/-- The whole flags byte after comparing two unsigned values: exactly one of L, G, E (R103). -/
def compareFlags (p q : Byte) : Byte :=
  if p.toNat = q.toNat then 0b00000001
  else if p.toNat < q.toNat then 0b00000100
  else 0b00000010

end Sys2Proof.Machine
end

