-- ==== Sys2Proof/Machine/Operands.lean ====
section
/-! DEFINITION. The operand forms: a register index, the target of a control transfer, the return address of CALL. The immediate of
LDI is used as it stands (R67) and needs no operation. -/

namespace Sys2Proof.Machine

/-- `regidx(b)`: all 8 bits of the operand byte count; 8 to 255 raises InvalidRegister (R66, R86). -/
def regidx (b : Byte) : Except Fatal RegIdx :=
  if h : b.toNat < Config.numRegs then .ok ⟨b.toNat, h⟩ else .error (.invalidRegister b)

/-- The two register operands of format F2, validated in operand order (R86). -/
def regidx2 (opA opB : Byte) : Except Fatal (RegIdx × RegIdx) := do
  let a ← regidx opA
  let b ← regidx opB
  return (a, b)

/-- `zext_9(v)`: an 8-bit value as a program counter, bit 8 zero (R10). -/
def zext9 (v : Byte) : Pc := v.zeroExtend 9

/-- `pc <- zext_9(v)`: a control transfer to an absolute address (R120). -/
def State.jump (s : State) (v : Byte) : State := s.setPc (zext9 v)

/-- The return address of CALL, `pc + 2` as a mathematical integer; one that does not fit a cell raises OutOfBounds(256) (R124; the
spec's decision D7). -/
def returnAddress (s : State) : Except Fatal Byte :=
  let ret := s.pc.toNat + 2
  if ret > 255 then .error (.outOfBounds 256) else .ok (BitVec.ofNat 8 ret)

end Sys2Proof.Machine
end

