-- ==== Sys2Proof/Machine/Alu.lean ====
section
/-! DEFINITION. The ALU's two arithmetic operations (R90) and the meanings of ADD, MUL and CMP (41_alu.md). -/

namespace Sys2Proof.Machine

/-- The sum of two unsigned bytes, narrowed modulo 256; no carry is kept (R90, R101, R104). -/
def aluAdd (p q : Byte) : Byte := BitVec.ofNat 8 (p.toNat + q.toNat)

/-- The product of two unsigned bytes, narrowed modulo 256; the high half is lost (R90, R102, R104). -/
def aluMul (p q : Byte) : Byte := BitVec.ofNat 8 (p.toNat * q.toNat)

/-- What ADD and MUL share: both registers are read, then the first is written (R100). -/
def arith (op : Byte → Byte → Byte) (opA opB : Byte) (s : State) : Except Fatal State := do
  let (a, b) ← regidx2 opA opB
  return (s.setReg a (op (s.reg a) (s.reg b))).advance 3

/-- ADD ra, rb (R101). -/
def execAdd (opA opB : Byte) (s : State) : Host.Outcome State Fault Refusal := commit s (arith aluAdd opA opB s)

/-- MUL ra, rb (R102). -/
def execMul (opA opB : Byte) (s : State) : Host.Outcome State Fault Refusal := commit s (arith aluMul opA opB s)

/-- CMP ra, rb: writes the whole flags byte and no register (R103). -/
def execCmp (opA opB : Byte) (s : State) : Host.Outcome State Fault Refusal :=
  commit s do
    let (a, b) ← regidx2 opA opB
    return (s.setFl (compareFlags (s.reg a) (s.reg b))).advance 3

end Sys2Proof.Machine
end

