-- ==== Sys2Proof/Machine/Control.lean ====
section
/-! DEFINITION. The meanings of the control-transfer instructions JMP, JEQ, JNE, CALL and RET (43_control_transfer.md). -/

namespace Sys2Proof.Machine

/-- RET: the byte on top of the stack becomes the program counter, then the stack pointer is one higher (R125). -/
def execRet (s : State) : Host.Outcome State Fault Refusal :=
  commit s do
    let v ← loadTop s
    let t ← spInc s
    return t.jump v

/-- CALL ra: pushes the address of the next instruction and jumps; `x[a]` is read after the push (R124; register 7: D8, log 7). -/
def execCall (opA : Byte) (s : State) : Host.Outcome State Fault Refusal :=
  commit s do
    let a ← regidx opA
    let t ← spDec s
    let ret ← returnAddress t
    let t ← storeTop ret t
    return t.jump (t.reg a)

/-- JMP ra (R121). -/
def execJmp (opA : Byte) (s : State) : Host.Outcome State Fault Refusal :=
  commit s do
    let a ← regidx opA
    return s.jump (s.reg a)

/-- JEQ ra: as JMP if E is 1, else on to the next instruction; the operand is validated either way (R122, R86). -/
def execJeq (opA : Byte) (s : State) : Host.Outcome State Fault Refusal :=
  commit s do
    let a ← regidx opA
    return if s.flagE then s.jump (s.reg a) else s.advance 2

/-- JNE ra: as JMP if E is 0, else on to the next instruction; the operand is validated either way (R123, R86). -/
def execJne (opA : Byte) (s : State) : Host.Outcome State Fault Refusal :=
  commit s do
    let a ← regidx opA
    return if s.flagE then s.advance 2 else s.jump (s.reg a)

end Sys2Proof.Machine
end

