-- ==== Sys2Proof/Machine/DataMove.lean ====
section
/-! DEFINITION. The meanings of the data-move and output instructions LDI and PRN (44_data_move_io.md). -/

namespace Sys2Proof.Machine

/-- PRN ra: appends the 8-bit value of `x[a]` to the output stream (R132). -/
def execPrn (opA : Byte) (s : State) : Host.Outcome State Fault Refusal :=
  commit s do
    let a ← regidx opA
    return (s.emit (s.reg a)).advance 2

/-- LDI ra, imm: the immediate is copied as it stands and never validated (R131, R67). -/
def execLdi (opA imm : Byte) (s : State) : Host.Outcome State Fault Refusal :=
  commit s do
    let a ← regidx opA
    return (s.setReg a imm).advance 3

end Sys2Proof.Machine
end

