-- ==== Sys2Proof/Machine/Stack.lean ====
section
/-! DEFINITION. The meanings of the stack instructions PUSH and POP (42_stack.md). -/

namespace Sys2Proof.Machine

/-- PUSH ra: the stack pointer is one lower, then `x[a]`, read after that, is written there (R112; register 7: D8, log 7). -/
def execPush (opA : Byte) (s : State) : Host.Outcome State Fault Refusal :=
  commit s do
    let a ← regidx opA
    let t ← spDec s
    let t ← storeTop (t.reg a) t
    return t.advance 2

/-- POP ra: the byte on top of the stack becomes `x[a]`, then the stack pointer as it now stands is one higher (R113; register 7: D8,
log 7). -/
def execPop (opA : Byte) (s : State) : Host.Outcome State Fault Refusal :=
  commit s do
    let a ← regidx opA
    let v ← loadTop s
    let t ← spInc (s.setReg a v)
    return t.advance 2

end Sys2Proof.Machine
end

