-- ==== Sys2Proof/Machine/System.lean ====
section
/-! DEFINITION. The meanings of the system instructions NOP and HLT (45_system.md). -/

namespace Sys2Proof.Machine

/-- NOP: the program counter advances by 1, no other effect (R141). -/
def execNop (s : State) : Host.Outcome State Fault Refusal := commit s (.ok (s.advance 1))

/-- HLT: the normal stop; `pc` stays at the HLT byte (R142; the spec's decision D3). -/
def execHlt (s : State) : Host.Outcome State Fault Refusal := commit s (.ok s.halt)

end Sys2Proof.Machine
end

