-- ==== Sys2Proof/Syntax.lean ====
section
/-! DEFINITION. The instructions, one constructor per row of the opcode table (R64). A register operand is the whole operand byte
as fetched, all 8 bits (R66): whether it names a register is checked when the instruction runs (R86), and WellFormed.lean says
which terms pass that check (log 13). -/

namespace Sys2Proof

/-- The 14 instructions, in the order of the opcode table (R64). -/
inductive Instr where
  /-- NOP, R141. -/
  | nop
  /-- HLT, R142. -/
  | hlt
  /-- RET, R125. -/
  | ret
  /-- PUSH ra, R112. -/
  | push (opA : Byte)
  /-- POP ra, R113. -/
  | pop (opA : Byte)
  /-- PRN ra, R132. -/
  | prn (opA : Byte)
  /-- CALL ra, R124. -/
  | call (opA : Byte)
  /-- JMP ra, R121. -/
  | jmp (opA : Byte)
  /-- JEQ ra, R122. -/
  | jeq (opA : Byte)
  /-- JNE ra, R123. -/
  | jne (opA : Byte)
  /-- LDI ra, imm, R131. -/
  | ldi (opA imm : Byte)
  /-- ADD ra, rb, R101. -/
  | add (opA opB : Byte)
  /-- MUL ra, rb, R102. -/
  | mul (opA opB : Byte)
  /-- CMP ra, rb, R103. -/
  | cmp (opA opB : Byte)
  deriving DecidableEq, Repr

end Sys2Proof
end

