-- ==== Sys2Proof/Machine/Dispatch.lean ====
section
/-! DEFINITION. The execute part of the step: one meaning per instruction (R80 parts 5 to 7, R87). It is defined for every state; the
step calls it only in a RUNNING one (log 14). -/

namespace Sys2Proof.Machine

def exec (i : Instr) (s : State) : Host.Outcome State Fault Refusal :=
  match i with
  | .nop => Sys2Proof.Machine.execNop s
  | .hlt => Sys2Proof.Machine.execHlt s
  | .ret => Sys2Proof.Machine.execRet s
  | .push opA => Sys2Proof.Machine.execPush opA s
  | .pop opA => Sys2Proof.Machine.execPop opA s
  | .prn opA => Sys2Proof.Machine.execPrn opA s
  | .call opA => Sys2Proof.Machine.execCall opA s
  | .jmp opA => Sys2Proof.Machine.execJmp opA s
  | .jeq opA => Sys2Proof.Machine.execJeq opA s
  | .jne opA => Sys2Proof.Machine.execJne opA s
  | .ldi opA imm => Sys2Proof.Machine.execLdi opA imm s
  | .add opA opB => Sys2Proof.Machine.execAdd opA opB s
  | .mul opA opB => Sys2Proof.Machine.execMul opA opB s
  | .cmp opA opB => Sys2Proof.Machine.execCmp opA opB s

end Sys2Proof.Machine
end

