-- ==== Sys2Proof/Decode.lean ====
section
/-! DEFINITION. The decoder, total on any bytes and rejecting by name, and after it the encoder (R60 to R71). -/

namespace Sys2Proof

/-- The three formats, by what remains to be read after the opcode byte (R61). -/
inductive Format where
  /-- F0: the opcode alone. -/
  | f0 (i : Instr)
  /-- F1: one operand byte follows. -/
  | f1 (mk : Byte → Instr)
  /-- F2: two operand bytes follow. -/
  | f2 (mk : Byte → Byte → Instr)

/-- The dispatch table: a mapping from the whole 8-bit opcode value (R62, R64, R84); `none` for each of the 242 illegal
opcodes (R70). -/
def dispatch (op : Byte) : Option Format :=
  match op with
  | 0x00 => some (.f0 .nop)
  | 0x01 => some (.f0 .hlt)
  | 0x11 => some (.f0 .ret)
  | 0x45 => some (.f1 .push)
  | 0x46 => some (.f1 .pop)
  | 0x47 => some (.f1 .prn)
  | 0x50 => some (.f1 .call)
  | 0x54 => some (.f1 .jmp)
  | 0x55 => some (.f1 .jeq)
  | 0x56 => some (.f1 .jne)
  | 0x82 => some (.f2 .ldi)
  | 0xA0 => some (.f2 .add)
  | 0xA2 => some (.f2 .mul)
  | 0xA7 => some (.f2 .cmp)
  | _ => none

/-- Why bytes do not decode. -/
inductive DecodeError where
  /-- The opcode byte is not in the dispatch table (R70, R84). -/
  | illegalOpcode (op : Byte)
  /-- The bytes end before the one at this offset from the opcode, which the instruction needs. -/
  | endOfBytes (offset : Nat)
  deriving DecidableEq, Repr

/-- Reads one instruction from the front of the bytes and returns it with the rest. The opcode is looked up before any operand
byte is looked at (R84), and operand bytes are taken in ascending order (R60, R85). -/
def decode : List Byte → Except DecodeError (Instr × List Byte)
  | [] => .error (.endOfBytes 0)
  | op :: rest =>
    match dispatch op with
    | none => .error (.illegalOpcode op)
    | some (.f0 i) => .ok (i, rest)
    | some (.f1 mk) =>
      match rest with
      | [] => .error (.endOfBytes 1)
      | a :: rest => .ok (mk a, rest)
    | some (.f2 mk) =>
      match rest with
      | [] => .error (.endOfBytes 1)
      | [_] => .error (.endOfBytes 2)
      | a :: b :: rest => .ok (mk a b, rest)

/-- The operand count in the two highest bits of an opcode byte (R62). -/
def nops (op : Byte) : Nat := (op.extractLsb' 6 2).toNat

/-- The opcode byte of an instruction (R64). -/
def Instr.opcode : Instr → Byte
  | .nop => 0x00
  | .hlt => 0x01
  | .ret => 0x11
  | .push _ => 0x45
  | .pop _ => 0x46
  | .prn _ => 0x47
  | .call _ => 0x50
  | .jmp _ => 0x54
  | .jeq _ => 0x55
  | .jne _ => 0x56
  | .ldi _ _ => 0x82
  | .add _ _ => 0xA0
  | .mul _ _ => 0xA2
  | .cmp _ _ => 0xA7

/-- The operand bytes of an instruction, in ascending address order (R60, R61). -/
def Instr.operandBytes : Instr → List Byte
  | .nop => []
  | .hlt => []
  | .ret => []
  | .push opA => [opA]
  | .pop opA => [opA]
  | .prn opA => [opA]
  | .call opA => [opA]
  | .jmp opA => [opA]
  | .jeq opA => [opA]
  | .jne opA => [opA]
  | .ldi opA imm => [opA, imm]
  | .add opA opB => [opA, opB]
  | .mul opA opB => [opA, opB]
  | .cmp opA opB => [opA, opB]

/-- The bytes of an instruction: the opcode, then its operand bytes (R60). -/
def encode (i : Instr) : List Byte := i.opcode :: i.operandBytes

/-- The length of an instruction in bytes, found from its opcode byte (R63). -/
def Instr.length (i : Instr) : Nat := nops i.opcode + 1

/-- The bytes of an instruction given as a number whose bit 0 is the least significant bit of the first byte, laid out in ascending
address order up to the longest instruction; every bit from `nbits` on is 0. -/
def tableWordBytes (nbits w : Nat) : List Byte :=
  (List.range Config.maxLength).map fun k => BitVec.ofNat 8 (w % 2 ^ nbits / 2 ^ (8 * k))

/-- What the decoder reads from a word of the opcode table (the host's question). -/
def decodeTableWord (nbits w : Nat) : Option Instr :=
  match decode (tableWordBytes nbits w) with
  | .ok (i, _) => some i
  | .error _ => none

end Sys2Proof
end

