-- ==== Sys2Proof/Machine/Fetch.lean ====
section
/-! DEFINITION. Fetching an instruction: parts 1 to 4 of the step (R80, R82 to R85). -/

namespace Sys2Proof.Machine

/-- The bytes at ascending addresses from `addr`, at most `n` of them, read one by one with `memRead` and ending before the first
address outside memory. -/
def fetchBytes (s : State) : Nat → Int → List Byte
  | 0, _ => []
  | n + 1, addr =>
    match memRead addr s with
    | .ok v => v :: fetchBytes s n (addr + 1)
    | .error _ => []

/-- The bytes from the program counter on, as many as the longest instruction has and memory holds. -/
def bytesAtPc (s : State) : List Byte := fetchBytes s Config.maxLength s.pc.toNat

/-- The fatal condition of bytes that do not decode: an opcode not in the table (R84), or an operand byte beyond the last address
(R85). -/
def fetchFatal (s : State) : DecodeError → Fatal
  | .illegalOpcode op => .illegalInstruction op s.pc
  | .endOfBytes offset => .outOfBounds (s.pc.toNat + offset)

/-- The instruction at the program counter. The bounds check of the program counter comes before anything is read (R82), the opcode
is looked up before any operand byte counts (R84), and all operand bytes are fetched before any is validated (R85). -/
def fetch (s : State) : Except Fatal Instr :=
  if s.pc.toNat > 255 then .error (.runawayProgram s.pc)
  else
    match decode (bytesAtPc s) with
    | .ok (i, _) => .ok i
    | .error e => .error (fetchFatal s e)

end Sys2Proof.Machine
end

