-- ==== Sys2Proof/Machine/Step.lean ====
section
/-! DEFINITION. One step of the machine (R80, R81). -/

namespace Sys2Proof.Machine

/-- One step. A RUNNING machine fetches the instruction at its program counter and runs it, or takes the fatal condition of the
fetch (R80). A HALTED machine stays as it is: no step is taken and no component changes (R81; log 2). -/
def step (s : State) : Host.Outcome State Fault Refusal :=
  match s.run with
  | .halted => .next s
  | .running =>
    match fetch s with
    | .ok i => exec i s
    | .error f => commit s (.error f)

/-- The state with one instruction of the opcode table (a number as `decodeTableWord` reads it) stored where the next step fetches.
Only memory changes: a RUNNING machine fetches at `pc` and needs nothing else. Bytes beyond the last address are not stored, so the
whole instruction stands there when `pc` is 253 or less. -/
def State.withFetchWord (s : State) (nbits w : Nat) : State :=
  s.setMem (Memory.place s.mem s.pc.toNat (tableWordBytes nbits w))

end Sys2Proof.Machine
end

