-- ==== Sys2Proof/Machine/Interface.lean ====
section
/-! DEFINITION. What the outside can read of the machine: the status and output interfaces (R36), the observation of a run (R12) and
the optional debug read (R171). All are pure reads between steps; none changes the state. -/

namespace Sys2Proof.Machine

/-- The numeric code of a halt cause; a running machine has none (R29; the spec's decision D9). -/
def Cause.code : Cause → Option Nat
  | .none => Option.none
  | .halt => some 0
  | .illegalInstruction => some 1
  | .invalidRegister => some 2
  | .outOfBounds => some 3
  | .runawayProgram => some 4

/-- The status interface (R36). -/
structure Status where
  run : RunState
  code : Option Nat
  info : Info
  pc : Pc
  deriving DecidableEq, Repr

/-- What the status interface shows of a state (R36). -/
def State.status (s : State) : Status := { run := s.run, code := s.cause.code, info := s.info, pc := s.pc }

/-- What is observed of a run once it is over (R12). -/
structure Final where
  cause : Cause
  info : Info
  regs : Vector Byte 8
  pc : Pc
  fl : Byte
  mem : Memory
  deriving DecidableEq, Repr

/-- The observation of a run: the output stream, the run state and, once HALTED, the rest (R12). -/
structure Observation where
  out : List Byte
  run : RunState
  final : Option Final
  deriving DecidableEq, Repr

/-- The observation that a state gives (R12). -/
def State.observe (s : State) : Observation where
  out := s.out
  run := s.run
  final :=
    match s.run with
    | .running => none
    | .halted => some { cause := s.cause, info := s.info, regs := s.regs, pc := s.pc, fl := s.fl, mem := s.mem }

/-- The optional debug read (R171). -/
structure TraceLine where
  pc : Pc
  fl : Byte
  next : List (Option Byte)
  regs : Vector Byte 8
  deriving DecidableEq, Repr

/-- What the debug read shows: `pc`, the flags, the three bytes from `pc` on and the registers; of a byte beyond the last address it
shows that there is none (R171; DESIGN CHOICE, log 11). -/
def State.trace (s : State) : TraceLine where
  pc := s.pc
  fl := s.fl
  next := (List.range 3).map fun k => (memRead (s.pc.toNat + k) s).toOption
  regs := s.regs

end Sys2Proof.Machine
end

