-- ==== Sys2Proof/Machine/Reset.lean ====
section
/-! DEFINITION. Reset with an image (R35, R180, R181). -/

namespace Sys2Proof.Machine

/-- The memory after the load of an image: its bytes from address 0 up to the memory's capacity, 0x00 elsewhere (R181). -/
def loadImage (image : List Byte) : Memory := Memory.place [] Config.loadAddress image

/-- The machine right after a reset that presents this image (R35). -/
def resetWith (image : List Byte) : State := State.reset.setMem (loadImage image)

/-- Reset: every component to its reset value, whatever the state was before; the only way out of HALTED (R180; the spec's decisions
D14 and D20). It is an input to the machine, not a step (log 10). -/
def State.restart (_s : State) (image : List Byte) : State := resetWith image

end Sys2Proof.Machine
end

