-- ==== Sys2Proof/Safety.lean ====
section
/-! DEFINITION. What claims say of states and runs: the invariant of R37, and the two ways a run ends. -/

namespace Sys2Proof.Machine

/-- The 14 defined opcode values, in ascending order (R64). -/
def definedOpcodes : List Byte :=
  [0x00, 0x01, 0x11, 0x45, 0x46, 0x47, 0x50, 0x54, 0x55, 0x56, 0x82, 0xA0, 0xA2, 0xA7]

/-- The values the flags byte can hold (R27). -/
def legalFlags (v : Byte) : Bool := v = 0x00 || v = 0x01 || v = 0x02 || v = 0x04

/-- The run state, halt cause, halt information and program counter fit together as R28 to R30 and R37 say. -/
def haltRecord (s : State) : Prop :=
  match s.run, s.cause, s.info with
  | .running, .none, .int n => n = 0
  | .halted, .halt, .int n => n = 0
  | .halted, .illegalInstruction, .opcodeAt op pc => op ∉ definedOpcodes ∧ pc = s.pc
  | .halted, .invalidRegister, .int n => 8 ≤ n ∧ n ≤ 255
  | .halted, .outOfBounds, .int n => n = -1 ∨ n = 256
  | .halted, .runawayProgram, .int n => n = 256 ∧ s.pc.toNat = 256
  | _, _, _ => False

/-- The invariant of the machine (R37), with the memory's canonical form. -/
structure State.Inv (s : State) : Prop where
  mem : Memory.wf s.mem
  pc : s.pc.toNat ≤ Config.memSize
  fl : legalFlags s.fl = true
  record : haltRecord s

/-- The machine has stopped at a fatal condition (R150). -/
def State.Faulted (s : State) : Prop := s.run = .halted ∧ s.cause ≠ .halt

/-- The machine has stopped normally, by HLT (R142). -/
def State.Finished (s : State) : Prop := s.run = .halted ∧ s.cause = .halt

/-- The outcome is a next state that is HALTED with this cause and information; nothing is said of its other components. -/
def StopsWith (o : Host.Outcome State Fault Refusal) (c : Cause) (i : Info) : Prop :=
  ∃ t, o = .next t ∧ t.run = .halted ∧ t.cause = c ∧ t.info = i

/-- The bytes of the instruction stand in memory from the program counter on, all of them inside memory (R60). -/
def State.HoldsAtPc (s : State) (i : Instr) : Prop :=
  ∀ k v, (encode i)[k]? = some v → s.pc.toNat + k ≤ 255 ∧ Memory.read s.mem (s.pc.toNat + k) = v

end Sys2Proof.Machine
end

