-- ==== Sys2Proof/WellFormed.lean ====
section
/-! DEFINITION. Which instruction terms are well formed: every operand byte that names a register is 0 to 7 (R66, R71). An
ill-formed term is still an instruction of the machine: running it raises InvalidRegister (R86). -/

namespace Sys2Proof

/-- An operand byte that names a register: 0 to 7 (R66). -/
def namesRegister (b : Byte) : Bool := b.toNat < Config.numRegs

/-- Every register operand of the instruction names a register; the immediate of LDI is not checked (R71, R86). -/
def Instr.wellFormed : Instr → Bool
  | .nop => true
  | .hlt => true
  | .ret => true
  | .push opA => namesRegister opA
  | .pop opA => namesRegister opA
  | .prn opA => namesRegister opA
  | .call opA => namesRegister opA
  | .jmp opA => namesRegister opA
  | .jeq opA => namesRegister opA
  | .jne opA => namesRegister opA
  | .ldi opA _ => namesRegister opA
  | .add opA opB => namesRegister opA && namesRegister opB
  | .mul opA opB => namesRegister opA && namesRegister opB
  | .cmp opA opB => namesRegister opA && namesRegister opB

end Sys2Proof
end

