-- ==== Sys2Proof/Certificates/Slice0/Obligations.lean ====
section
/-! DEFINITION. The statements for the provers. `opA.toNat = a.val` says that an operand byte names the register `a`. A statement that
rests on a decision or an inference the spec marks as its own names it and has basis 'derived'. -/

open Sys2Proof Sys2Proof.Machine

/-! ### Encoding -/

/-- Words written out bit by bit from R61 and R64 decode to the instructions they stand for, one or more of every family. -/
def Obligations.DecodeKnownWords : Prop :=
  decode [0b00000000] = .ok (.nop, []) ∧
  decode [0b00000001] = .ok (.hlt, []) ∧
  decode [0b00010001] = .ok (.ret, []) ∧
  decode [0b01000101, 0b00000011] = .ok (.push 3, []) ∧
  decode [0b01000110, 0b00000111] = .ok (.pop 7, []) ∧
  decode [0b01000111, 0b11001000] = .ok (.prn 200, []) ∧
  decode [0b01010000, 0b00000001] = .ok (.call 1, []) ∧
  decode [0b01010100, 0b00000010] = .ok (.jmp 2, []) ∧
  decode [0b01010101, 0b00000010, 0b11111111] = .ok (.jeq 2, [0xFF]) ∧
  decode [0b01010110, 0b00000010] = .ok (.jne 2, []) ∧
  decode [0b10000010, 0b00000000, 0b00001000] = .ok (.ldi 0 8, []) ∧
  decode [0b10100000, 0b00000000, 0b00000001] = .ok (.add 0 1, []) ∧
  decode [0b10100010, 0b00000010, 0b00000101] = .ok (.mul 2 5, []) ∧
  decode [0b10100111, 0b00000110, 0b00000100] = .ok (.cmp 6 4, [])

/-- Decoding and encoding agree, both ways: bytes decode to an instruction exactly when its encoding stands at their front. So every
operand of every instruction survives, well formed or not, and no two encodings mean the same instruction (R60, R61, R64, R66). -/
def Obligations.DecodeEncodeAgree : Prop :=
  ∀ (bytes : List Byte) (i : Instr) (rest : List Byte), decode bytes = .ok (i, rest) ↔ bytes = encode i ++ rest

/-- The opcodes that are rejected, whatever follows them, are the ranges that R70 lists, and there are 242 of them. -/
def Obligations.IllegalOpcodesAreTheListedRanges : Prop :=
  (∀ (op : Byte) (rest : List Byte), decode (op :: rest) = .error (.illegalOpcode op) ↔
    (let n := op.toNat
     (0x02 ≤ n ∧ n ≤ 0x10) ∨ (0x12 ≤ n ∧ n ≤ 0x3F) ∨
     (0x40 ≤ n ∧ n ≤ 0x44) ∨ (0x48 ≤ n ∧ n ≤ 0x4F) ∨ (0x51 ≤ n ∧ n ≤ 0x53) ∨ (0x57 ≤ n ∧ n ≤ 0x7F) ∨
     n = 0x80 ∨ n = 0x81 ∨ (0x83 ≤ n ∧ n ≤ 0x9F) ∨ n = 0xA1 ∨ (0xA3 ≤ n ∧ n ≤ 0xA6) ∨ (0xA8 ≤ n ∧ n ≤ 0xBF) ∨
     (0xC0 ≤ n ∧ n ≤ 0xFF))) ∧
  ((List.range 256).filter fun n => (dispatch (BitVec.ofNat 8 n)).isNone).length = 242

/-- Bytes are rejected as too short exactly when they are a proper beginning of some instruction's encoding, and the offset
reported is that of the first missing byte (R60, R61). -/
def Obligations.ShortBytesAreRejected : Prop :=
  ∀ (bytes : List Byte) (n : Nat), decode bytes = .error (.endOfBytes n) ↔
    n = bytes.length ∧ ∃ (i : Instr) (more : List Byte), more ≠ [] ∧ encode i = bytes ++ more

/-- Whatever decodes takes as many bytes as the two highest bits of its opcode byte say, plus one (R62, R63). -/
def Obligations.LengthFromTheTwoHighestBits : Prop :=
  ∀ (op : Byte) (more : List Byte) (i : Instr) (rest : List Byte), decode (op :: more) = .ok (i, rest) →
    (op :: more).length = (op.toNat / 64 + 1) + rest.length ∧ (encode i).length = op.toNat / 64 + 1

/-! ### The step and the fetch -/

/-- A step of a RUNNING machine whose program counter is inside memory and whose bytes there decode is `exec` of the decoded
instruction at that state; the step adds nothing around it, not even to the program counter (R80, R87). -/
def Obligations.StepRunsDecoded : Prop :=
  ∀ (s : State) (i : Instr) (rest : List Byte), s.run = .running → s.pc.toNat ≤ 255 → decode (bytesAtPc s) = .ok (i, rest) →
    step s = exec i s

/-- The same from memory itself: wherever the bytes of an instruction stand at the program counter, at any address and up to the last
one, a step runs that instruction (R80, R83, R85). -/
def Obligations.StepRunsTheEncodedInstruction : Prop :=
  ∀ (s : State) (i : Instr), s.run = .running → s.HoldsAtPc i → step s = exec i s

/-- The fetch is parts 1 to 4 of R80 in their order, spelled out with the program-counter check, the dispatch table and MemRead.
The order of the parts 3 and 4 rests on the spec's decision D5 (log 9). -/
def Obligations.FetchFollowsTheStepParts : Prop :=
  ∀ s : State, fetch s =
    (if s.pc.toNat > 255 then .error (.runawayProgram s.pc)
     else do
      let op ← memRead s.pc.toNat s
      match dispatch op with
      | none => .error (.illegalInstruction op s.pc)
      | some (.f0 i) => .ok i
      | some (.f1 mk) => do
        let opA ← memRead (s.pc.toNat + 1) s
        .ok (mk opA)
      | some (.f2 mk) => do
        let opA ← memRead (s.pc.toNat + 1) s
        let opB ← memRead (s.pc.toNat + 2) s
        .ok (mk opA opB))

/-! ### Memory and operands -/

/-- MemRead (R44): outside 0 to 255 it raises OutOfBounds with that address; inside it gives the cell. The cell of an address holds
what was last written there, by the load of an image or by a later write, and 0x00 if nothing was. -/
def Obligations.MemReadGivesTheLastWrite : Prop :=
  (∀ (addr : Int) (s : State), addr < 0 ∨ 255 < addr → memRead addr s = .error (.outOfBounds addr)) ∧
  (∀ (addr : Int) (s : State), 0 ≤ addr → addr ≤ 255 → memRead addr s = .ok (Memory.read s.mem addr.toNat)) ∧
  (∀ (addr addr' : Int) (v : Byte) (s t : State), memWrite addr v s = .ok t → 0 ≤ addr' → addr' ≤ 255 →
    memRead addr' t = if addr' = addr then .ok v else memRead addr' s) ∧
  (∀ (image : List Byte) (a : Nat), a < 256 → memRead a (resetWith image) = .ok (image.getD a 0x00))

/-- MemWrite (R45): outside 0 to 255 it raises OutOfBounds with that address; inside, at every address, it sets that one cell and
changes no other cell and no other component. -/
def Obligations.MemWriteChangesOneCell : Prop :=
  (∀ (addr : Int) (v : Byte) (s : State), addr < 0 ∨ 255 < addr → memWrite addr v s = .error (.outOfBounds addr)) ∧
  (∀ (addr : Int) (v : Byte) (s : State), 0 ≤ addr → addr ≤ 255 →
    ∃ m, memWrite addr v s = .ok { s with mem := m } ∧
      ∀ a : Nat, Memory.read m a = if (a : Int) = addr then v else Memory.read s.mem a)

/-- A register operand (R66): 0 to 7 select that register, every other byte raises InvalidRegister with the byte; no bit is masked. So
an instruction that reads its operand's register uses that register's value, or is a fatal condition. -/
def Obligations.RegisterOperandIsTheWholeByte : Prop :=
  (∀ (b : Byte) (a : RegIdx), regidx b = .ok a ↔ b.toNat = a.val) ∧
  (∀ b : Byte, regidx b = .error (.invalidRegister b) ↔ 8 ≤ b.toNat) ∧
  (∀ (s : State) (b : Byte) (a : RegIdx), b.toNat = a.val →
    ∃ t, exec (.jmp b) s = .next t ∧ t.pc.toNat = (s.reg a).toNat) ∧
  (∀ (s : State) (b : Byte), 8 ≤ b.toNat → StopsWith (exec (.jmp b) s) .invalidRegister (.int b.toNat))

/-- Memory in canonical form is determined by what its addresses read as: equal memories are equal data. -/
def Obligations.EqualMemoriesAreEqualData : Prop :=
  ∀ m m' : Memory, Memory.wf m → Memory.wf m' → (∀ a, Memory.read m a = Memory.read m' a) → m = m'

/-! ### What each instruction does, and that it completes -/

/-- NOP (R141): the program counter advances by 1, nothing else changes and nothing can be raised, wherever the byte 0x00 is fetched;
at 255 it becomes 256, and the next step halts with RunawayProgram. -/
def Obligations.NopOnlyAdvances : Prop :=
  (∀ s : State, exec .nop s = .next { s with pc := s.pc + 1 }) ∧
  (∀ s : State, s.run = .running → s.pc.toNat ≤ 255 → Memory.read s.mem s.pc.toNat = 0x00 →
    step s = .next { s with pc := s.pc + 1 } ∧ (s.pc + 1).toNat = s.pc.toNat + 1 ∧
    (s.pc.toNat = 255 → ∃ n, StopsWith (step { s with pc := s.pc + 1 }) .runawayProgram n))

/-- HLT (R142): HALTED with cause Halt and information 0, everything else as it was. That `pc` is unchanged is the spec's decision D3
(log 9). -/
def Obligations.HltHalts : Prop :=
  (∀ s : State, exec .hlt s = .next { s with run := .halted, cause := .halt, info := .int 0 }) ∧
  (∀ s : State, s.run = .running → s.pc.toNat ≤ 255 → Memory.read s.mem s.pc.toNat = 0x01 →
    step s = .next { s with run := .halted, cause := .halt, info := .int 0 })

/-- ADD (R101): its effect, for every two registers, the same one and register 7 included; the two conditions it can raise by R100; its
encoding. -/
def Obligations.AddWrapsModulo256 : Prop :=
  (∀ (s : State) (opA opB : Byte) (a b : RegIdx), opA.toNat = a.val → opB.toNat = b.val →
    exec (.add opA opB) s = .next
      { s with regs := s.regs.set a (BitVec.ofNat 8 (((s.reg a).toNat + (s.reg b).toNat) % 256)), pc := s.pc + 3 }) ∧
  (∀ (s : State) (opA opB : Byte), 7 < opA.toNat ∨ 7 < opB.toNat →
    ∃ n, StopsWith (exec (.add opA opB) s) .invalidRegister n) ∧
  (∀ s : State, s.run = .running → s.pc.toNat = 254 ∨ s.pc.toNat = 255 → Memory.read s.mem s.pc.toNat = 0xA0 →
    StopsWith (step s) .outOfBounds (.int 256)) ∧
  (∀ opA opB : Byte, decode [0xA0, opA, opB] = .ok (.add opA opB, []))

/-- MUL (R102): its effect, for every two registers, the same one and register 7 included; the two conditions it can raise by R100; its
encoding. -/
def Obligations.MulKeepsTheLowByte : Prop :=
  (∀ (s : State) (opA opB : Byte) (a b : RegIdx), opA.toNat = a.val → opB.toNat = b.val →
    exec (.mul opA opB) s = .next
      { s with regs := s.regs.set a (BitVec.ofNat 8 (((s.reg a).toNat * (s.reg b).toNat) % 256)), pc := s.pc + 3 }) ∧
  (∀ (s : State) (opA opB : Byte), 7 < opA.toNat ∨ 7 < opB.toNat →
    ∃ n, StopsWith (exec (.mul opA opB) s) .invalidRegister n) ∧
  (∀ s : State, s.run = .running → s.pc.toNat = 254 ∨ s.pc.toNat = 255 → Memory.read s.mem s.pc.toNat = 0xA2 →
    StopsWith (step s) .outOfBounds (.int 256)) ∧
  (∀ opA opB : Byte, decode [0xA2, opA, opB] = .ok (.mul opA opB, []))

/-- CMP (R103): the whole flags byte from the unsigned comparison, exactly one flag set, whatever the old flags were; no register is
written; no other instruction changes FL, so the result stays until the next CMP; the two conditions it can raise by R100; its
encoding. -/
def Obligations.CmpSetsExactlyOneFlag : Prop :=
  (∀ (s : State) (opA opB : Byte) (a b : RegIdx), opA.toNat = a.val → opB.toNat = b.val →
    exec (.cmp opA opB) s = .next
      { s with
        fl := if (s.reg a).toNat = (s.reg b).toNat then 0b00000001
              else if (s.reg a).toNat < (s.reg b).toNat then 0b00000100
              else 0b00000010
        pc := s.pc + 3 }) ∧
  (∀ (s t : State) (opA opB : Byte) (a b : RegIdx), opA.toNat = a.val → opB.toNat = b.val → exec (.cmp opA opB) s = .next t →
    (t.flagE = true ↔ (s.reg a).toNat = (s.reg b).toNat) ∧
    (t.flagL = true ↔ (s.reg a).toNat < (s.reg b).toNat) ∧
    (t.flagG = true ↔ (s.reg b).toNat < (s.reg a).toNat) ∧
    t.fl.toNat < 8) ∧
  (∀ (i : Instr) (s t : State), (∀ opA opB, i ≠ .cmp opA opB) → exec i s = .next t → t.fl = s.fl) ∧
  (∀ (s : State) (opA opB : Byte), 7 < opA.toNat ∨ 7 < opB.toNat →
    ∃ n, StopsWith (exec (.cmp opA opB) s) .invalidRegister n) ∧
  (∀ s : State, s.run = .running → s.pc.toNat = 254 ∨ s.pc.toNat = 255 → Memory.read s.mem s.pc.toNat = 0xA7 →
    StopsWith (step s) .outOfBounds (.int 256)) ∧
  (∀ opA opB : Byte, decode [0xA7, opA, opB] = .ok (.cmp opA opB, []))

/-- LDI (R131): the register becomes the immediate, any byte, register 7 included, and nothing else but the program counter changes; the
conditions it can raise; its encoding. -/
def Obligations.LdiSetsOneRegister : Prop :=
  (∀ (s : State) (opA imm : Byte) (a : RegIdx), opA.toNat = a.val →
    exec (.ldi opA imm) s = .next { s with regs := s.regs.set a imm, pc := s.pc + 3 }) ∧
  (∀ (s : State) (opA imm : Byte), 7 < opA.toNat → ∃ n, StopsWith (exec (.ldi opA imm) s) .invalidRegister n) ∧
  (∀ s : State, s.run = .running → s.pc.toNat = 254 ∨ s.pc.toNat = 255 → Memory.read s.mem s.pc.toNat = 0x82 →
    StopsWith (step s) .outOfBounds (.int 256)) ∧
  (∀ opA imm : Byte, decode [0x82, opA, imm] = .ok (.ldi opA imm, []))

/-- JMP (R121): the program counter becomes the register's value and nothing else changes, register 7 included; the conditions it
can raise; its encoding. -/
def Obligations.JmpGoesToTheRegister : Prop :=
  (∀ (s : State) (opA : Byte) (a : RegIdx), opA.toNat = a.val →
    exec (.jmp opA) s = .next { s with pc := (s.reg a).zeroExtend 9 }) ∧
  (∀ (s : State) (opA : Byte), 7 < opA.toNat → StopsWith (exec (.jmp opA) s) .invalidRegister (.int opA.toNat)) ∧
  (∀ s : State, s.run = .running → s.pc.toNat = 255 → Memory.read s.mem 255 = 0x54 →
    StopsWith (step s) .outOfBounds (.int 256)) ∧
  (∀ opA : Byte, decode [0x54, opA] = .ok (.jmp opA, []))

/-- JEQ (R122): as JMP when E is set, else on by 2, whatever L and G are. (That its operand is validated either way is the spec's
decision D13: see InvalidRegisterOperandStops.) -/
def Obligations.JeqJumpsOnEqual : Prop :=
  ∀ (s : State) (opA : Byte) (a : RegIdx), opA.toNat = a.val →
    exec (.jeq opA) s = .next { s with pc := if s.fl.getLsbD 0 = true then (s.reg a).zeroExtend 9 else s.pc + 2 }

/-- JNE (R123): as JMP when E is clear, else on by 2, whatever L and G are. (Validation: as for JEQ.) -/
def Obligations.JneJumpsOnNotEqual : Prop :=
  ∀ (s : State) (opA : Byte) (a : RegIdx), opA.toNat = a.val →
    exec (.jne opA) s = .next { s with pc := if s.fl.getLsbD 0 = false then (s.reg a).zeroExtend 9 else s.pc + 2 }

/-- PRN (R132): the register's 8-bit value is appended to the output stream and nothing else but the program counter changes. That the
core hands over the value and not its digits is the spec's decision D11 (log 9). -/
def Obligations.PrnAppendsOneValue : Prop :=
  ∀ (s : State) (opA : Byte) (a : RegIdx), opA.toNat = a.val →
    exec (.prn opA) s = .next { s with out := s.out ++ [s.reg a], pc := s.pc + 2 }

/-- PUSH (R112) where the stack pointer is not 0: the stack pointer is one lower and that cell holds the register's value, read after
the decrement (for register 7 the spec's decision D8, log 7); every other cell and component is as it was. -/
def Obligations.PushStoresBelowTheStackPointer : Prop :=
  ∀ (s : State) (opA : Byte) (a : RegIdx), opA.toNat = a.val → 0 < s.sp.toNat →
    ∃ m, exec (.push opA) s = .next { s with regs := s.regs.set 7 (s.sp - 1), mem := m, pc := s.pc + 2 } ∧
      ∀ addr, Memory.read m addr =
        if addr = s.sp.toNat - 1 then (if a = 7 then s.sp - 1 else s.reg a) else Memory.read s.mem addr

/-- POP (R113) of a register other than 7 where the stack pointer is not 0xFF, and of register 7 where the popped byte is not 0xFF (the
spec's decision D8, log 7): the register holds the byte at the old stack pointer, and the stack pointer is then one higher. -/
def Obligations.PopLoadsAndIncrements : Prop :=
  (∀ (s : State) (opA : Byte) (a : RegIdx), opA.toNat = a.val → a ≠ 7 → s.sp.toNat < 255 →
    exec (.pop opA) s = .next
      { s with regs := (s.regs.set a (Memory.read s.mem s.sp.toNat)).set 7 (s.sp + 1), pc := s.pc + 2 }) ∧
  (∀ (s : State) (opA : Byte), opA.toNat = 7 → (Memory.read s.mem s.sp.toNat).toNat < 255 →
    exec (.pop opA) s = .next { s with regs := s.regs.set 7 (Memory.read s.mem s.sp.toNat + 1), pc := s.pc + 2 })

/-- CALL (R124) where the stack pointer is not 0 and the return address fits a byte: the return address `pc + 2` stands one below the
old stack pointer, the stack pointer addresses it, and the program counter is the register's value read after the push (for register 7
the spec's decision D8, log 7). -/
def Obligations.CallPushesTheReturnAddress : Prop :=
  ∀ (s : State) (opA : Byte) (a : RegIdx), opA.toNat = a.val → 0 < s.sp.toNat → s.pc.toNat ≤ 253 →
    ∃ m, exec (.call opA) s = .next
        { s with regs := s.regs.set 7 (s.sp - 1), mem := m, pc := (if a = 7 then s.sp - 1 else s.reg a).zeroExtend 9 } ∧
      ∀ addr, Memory.read m addr =
        if addr = s.sp.toNat - 1 then BitVec.ofNat 8 (s.pc.toNat + 2) else Memory.read s.mem addr

/-- RET (R125) where the stack pointer is not 0xFF: the program counter is whatever byte is on top of the stack, and the stack pointer
is one higher. -/
def Obligations.RetPopsTheProgramCounter : Prop :=
  ∀ s : State, s.sp.toNat < 255 →
    exec .ret s = .next
      { s with regs := s.regs.set 7 (s.sp + 1), pc := (Memory.read s.mem s.sp.toNat).zeroExtend 9 }

/-! ### Where an instruction or a fetch raises -/

/-- A register operand of 8 or more stops every instruction that has one, the first operand reported first; JEQ and JNE too whether
taken or not (D13), before any stack check (D5), and with nothing else changed (D4) (R86, R154; log 9). -/
def Obligations.InvalidRegisterOperandStops : Prop :=
  ∀ (s : State) (opA opB : Byte),
    (8 ≤ opA.toNat →
      ∀ i ∈ [Instr.push opA, .pop opA, .prn opA, .call opA, .jmp opA, .jeq opA, .jne opA, .ldi opA opB, .add opA opB, .mul opA opB,
        .cmp opA opB],
        exec i s = .next { s with run := .halted, cause := .invalidRegister, info := .int opA.toNat }) ∧
    (opA.toNat ≤ 7 → 8 ≤ opB.toNat →
      ∀ i ∈ [Instr.add opA opB, .mul opA opB, .cmp opA opB],
        exec i s = .next { s with run := .halted, cause := .invalidRegister, info := .int opB.toNat })

/-- A stack pointer that would leave 0 to 255, and a return address of 256, stop PUSH, POP, CALL and RET with nothing else changed; in a
CALL the stack pointer is checked first (R110, R111, R124, R153). The trigger points are the spec's decisions D6 and D7 and the
all-or-nothing effect D4 (log 9). -/
def Obligations.StackLimitsStop : Prop :=
  (∀ (s : State) (opA : Byte), opA.toNat ≤ 7 → s.sp.toNat = 0 →
    exec (.push opA) s = .next { s with run := .halted, cause := .outOfBounds, info := .int (-1) } ∧
    exec (.call opA) s = .next { s with run := .halted, cause := .outOfBounds, info := .int (-1) }) ∧
  (∀ (s : State) (opA : Byte), opA.toNat ≤ 7 → 0 < s.sp.toNat → s.pc.toNat = 254 →
    exec (.call opA) s = .next { s with run := .halted, cause := .outOfBounds, info := .int 256 }) ∧
  (∀ (s : State) (opA : Byte), opA.toNat < 7 → s.sp.toNat = 255 →
    exec (.pop opA) s = .next { s with run := .halted, cause := .outOfBounds, info := .int 256 }) ∧
  (∀ (s : State) (opA : Byte), opA.toNat = 7 → (Memory.read s.mem s.sp.toNat).toNat = 255 →
    exec (.pop opA) s = .next { s with run := .halted, cause := .outOfBounds, info := .int 256 }) ∧
  (∀ s : State, s.sp.toNat = 255 →
    exec .ret s = .next { s with run := .halted, cause := .outOfBounds, info := .int 256 })

/-- A program counter outside memory stops the machine before anything is read, with nothing else changed (R82, R155; D4, D15: log 9). -/
def Obligations.RunawayProgramStops : Prop :=
  ∀ s : State, s.run = .running → 255 < s.pc.toNat →
    step s = .next { s with run := .halted, cause := .runawayProgram, info := .int s.pc.toNat }

/-- An undefined opcode stops the machine whatever follows it, at address 255 too, with the opcode and the program counter recorded and
nothing else changed (R84, R152; D4, D15: log 9). -/
def Obligations.IllegalInstructionStops : Prop :=
  ∀ s : State, s.run = .running → s.pc.toNat ≤ 255 → Memory.read s.mem s.pc.toNat ∉ definedOpcodes →
    step s = .next
      { s with run := .halted, cause := .illegalInstruction, info := .opcodeAt (Memory.read s.mem s.pc.toNat) s.pc }

/-- A defined opcode whose operand bytes reach beyond address 255 stops the machine with OutOfBounds(256) and nothing else changed,
before any operand is validated (R85; D4, D5, D13: log 9). -/
def Obligations.MissingOperandByteStops : Prop :=
  ∀ s : State, s.run = .running → s.pc.toNat ≤ 255 → Memory.read s.mem s.pc.toNat ∈ definedOpcodes →
    255 < s.pc.toNat + (Memory.read s.mem s.pc.toNat).toNat / 64 →
    step s = .next { s with run := .halted, cause := .outOfBounds, info := .int 256 }

/-- Which condition a step of a RUNNING machine raises, if any, as one chain in the order of R158: the first that applies is the one
reported, HLT stops normally, and every other step leaves the machine RUNNING. The order is the spec's decision D5 (log 9); the
stack conditions rest on D6, D7 and D8. -/
def Obligations.FirstConditionIsReported : Prop :=
  ∀ s t : State, s.Inv → s.run = .running → step s = .next t →
    let pc := s.pc.toNat
    let op := Memory.read s.mem pc
    let opA := Memory.read s.mem (pc + 1)
    let opB := Memory.read s.mem (pc + 2)
    let top := Memory.read s.mem s.sp.toNat
    if 255 < pc then t.cause = .runawayProgram ∧ t.info = .int 256
    else if op ∉ definedOpcodes then t.cause = .illegalInstruction ∧ t.info = .opcodeAt op s.pc
    else if 64 ≤ op.toNat ∧ pc = 255 then t.cause = .outOfBounds ∧ t.info = .int 256
    else if 128 ≤ op.toNat ∧ pc = 254 then t.cause = .outOfBounds ∧ t.info = .int 256
    else if 64 ≤ op.toNat ∧ 8 ≤ opA.toNat then t.cause = .invalidRegister ∧ t.info = .int opA.toNat
    else if op ∈ [0xA0, 0xA2, 0xA7] ∧ 8 ≤ opB.toNat then t.cause = .invalidRegister ∧ t.info = .int opB.toNat
    else if op ∈ [0x45, 0x50] ∧ s.sp.toNat = 0 then t.cause = .outOfBounds ∧ t.info = .int (-1)
    else if op = 0x46 ∧ (if opA.toNat = 7 then top else s.sp) = 0xFF then t.cause = .outOfBounds ∧ t.info = .int 256
    else if op = 0x11 ∧ s.sp = 0xFF then t.cause = .outOfBounds ∧ t.info = .int 256
    else if op = 0x50 ∧ pc = 254 then t.cause = .outOfBounds ∧ t.info = .int 256
    else if op = 0x01 then t.cause = .halt ∧ t.info = .int 0
    else t.run = .running

/-- A step that ends in a fatal condition changes the run state, the halt cause and the halt information and nothing else (R156; the
spec's decision D4, log 9). -/
def Obligations.FatalConditionsArePrecise : Prop :=
  ∀ s t : State, s.Inv → s.run = .running → step s = .next t → t.Faulted →
    t = { s with run := .halted, cause := t.cause, info := t.info }

/-! ### Halting, running and reset -/

/-- A HALTED machine stays exactly as it is for any number of steps (R81, R28; the spec's decision D14, log 2 and log 9). -/
def Obligations.HaltedIsAbsorbing : Prop :=
  ∀ (n : Nat) (s : State), s.run = .halted → Host.Core.run core n s = .next s

/-- Every step of every state answers a next state: the machine has no stuck state, no fault and no refusal (R8; 93, head; log 1). -/
def Obligations.EveryStepAnswers : Prop :=
  ∀ s : State, ∃ t, step s = .next t

/-- The machine stops normally in a step exactly when that step fetches the byte 0x01 (R142, R28). -/
def Obligations.HltIsTheOnlyNormalStop : Prop :=
  ∀ s t : State, s.Inv → s.run = .running → step s = .next t →
    (t.Finished ↔ s.pc.toNat ≤ 255 ∧ Memory.read s.mem s.pc.toNat = 0x01)

/-- What reset leaves, whatever the state was before and whatever the image (R35, R180): FL, `cause`, `info` and `out` as the spec's
decisions D2 (log 6), D9, D15 and D20 (log 9) give them. -/
def Obligations.ResetSetsEveryRegister : Prop :=
  ∀ (s : State) (image : List Byte),
    let t := s.restart image
    (∀ a : RegIdx, t.reg a = if a = 7 then 0xF4 else 0x00) ∧ t.pc = 0 ∧ t.fl = 0x00 ∧ t.run = .running ∧ t.cause = .none ∧
    t.info = .int 0 ∧ t.out = []

/-- The load of an image (R181): byte a of it stands at address a for every a up to the end of the image or of memory, the rest of
memory is 0x00, and what lies beyond address 255 is dropped. -/
def Obligations.ImageStandsAtAddressZero : Prop :=
  ∀ (image : List Byte) (a : Nat),
    (a < 256 → a < image.length → image[a]? = some (Memory.read (resetWith image).mem a)) ∧
    (image.length ≤ a ∨ 256 ≤ a → Memory.read (resetWith image).mem a = 0x00)

/-- The invariant holds right after a reset with any image, that of `State.reset`, the empty one, among them (R35, R180, R181). That FL
is then a legal value rests on the spec's decision D2 (log 6), that `cause` and `info` fit the run state on D9 and D15 (log 9). -/
def Obligations.InvariantAtReset : Prop :=
  State.reset = resetWith [] ∧ ∀ image : List Byte, (resetWith image).Inv

/-- Every step keeps the invariant (R37): memory canonical and inside 0 to 255, `pc` at most 256, FL one of 0x00, 0x01, 0x02, 0x04, and
run state, cause and information as R28 to R30 fit them together. -/
def Obligations.EveryStepKeepsTheInvariant : Prop :=
  ∀ s t : State, s.Inv → step s = .next t → t.Inv

/-- From a reset with any image, any number of steps ends in a next state, and the invariant holds there (R8, R37, R81). That each step
answers a next state is the model's choice to take a fatal condition as one (log 1) and to leave a HALTED machine as it is (log 2); that
the invariant holds at the start rests on the spec's decision D2 for FL (log 6). -/
def Obligations.EveryRunKeepsTheInvariant : Prop :=
  ∀ (image : List Byte) (n : Nat), ∃ t, Host.Core.run core n (resetWith image) = .next t ∧ t.Inv

/-- What the status interface tells of a machine in the invariant (R29, R36, R151; the codes are the spec's decision D9, log 9): no code
while it runs, 0 exactly after a normal stop, 1 or more exactly after a fatal condition, and then 1, 2, 3 or 4 by its cause, no two
causes alike; beside it the run state, the information and `pc` as they are. -/
def Obligations.StatusCodeTellsHowTheRunEnded : Prop :=
  ∀ s : State, s.Inv →
    (s.status.code = none ↔ s.status.run = .running) ∧
    (s.status.code = some 0 ↔ s.Finished) ∧
    ((∃ n, 1 ≤ n ∧ s.status.code = some n) ↔ s.Faulted) ∧
    (s.status.code = some 1 ↔ s.cause = .illegalInstruction) ∧
    (s.status.code = some 2 ↔ s.cause = .invalidRegister) ∧
    (s.status.code = some 3 ↔ s.cause = .outOfBounds) ∧
    (s.status.code = some 4 ↔ s.cause = .runawayProgram) ∧
    (∀ n, s.status.code = some n → n ≤ 4) ∧
    s.status.run = s.run ∧ s.status.info = s.info ∧ s.status.pc = s.pc

/-! ### Frames: what is unchanged when `exec` gives a next state, a fatal condition's included -/

/-- NOP, HLT, PRN, JMP, JEQ, JNE and CMP write no register and no memory; only CMP writes FL and only PRN the output stream; only HLT
and a fatal condition write the halt record, and then nothing else is written, not even the program counter (R142, R156, R28; the spec's
decisions D3 for HLT and D4 for a fatal condition, log 9). Otherwise the program counter may change (R23, R27, R31, R41). -/
def Obligations.FrameOfInstructionsWithoutADestination : Prop :=
  ∀ (opA opB : Byte) (s t : State),
    ∀ i ∈ [Instr.nop, .hlt, .prn opA, .jmp opA, .jeq opA, .jne opA, .cmp opA opB], exec i s = .next t →
      (∀ r : RegIdx, t.reg r = s.reg r) ∧
      (∀ a, Memory.read t.mem a = Memory.read s.mem a) ∧
      (i ≠ .cmp opA opB → t.fl = s.fl) ∧
      (i ≠ .prn opA → t.out = s.out) ∧
      ((i ≠ .hlt ∧ t.run = s.run ∧ t.cause = s.cause ∧ t.info = s.info) ∨
        t = { s with run := .halted, cause := t.cause, info := t.info })

/-- LDI, ADD and MUL write no register but their first operand, and no memory, flag or output; only a fatal condition writes the halt
record, and then nothing else is written (R156; the spec's decision D4, log 9). Otherwise the program counter may change (R23, R27, R31,
R41). -/
def Obligations.FrameOfRegisterInstructions : Prop :=
  ∀ (opA opB : Byte) (s t : State),
    ∀ i ∈ [Instr.ldi opA opB, .add opA opB, .mul opA opB], exec i s = .next t →
      (∀ r : RegIdx, r.val ≠ opA.toNat → t.reg r = s.reg r) ∧
      (∀ a, Memory.read t.mem a = Memory.read s.mem a) ∧
      t.fl = s.fl ∧ t.out = s.out ∧
      ((t.run = s.run ∧ t.cause = s.cause ∧ t.info = s.info) ∨
        t = { s with run := .halted, cause := t.cause, info := t.info })

/-- PUSH and CALL write no register but 7, no memory but the one byte at the stack pointer that SpDec leaves, and no flag or output;
where SpDec raises they store nothing; only a fatal condition writes the halt record, and then nothing else is written (R156; the spec's
decision D4, log 9). Otherwise the program counter may change (R23, R27, R31, R41, R110). -/
def Obligations.FrameOfStoringInstructions : Prop :=
  ∀ (opA : Byte) (s t : State),
    ∀ i ∈ [Instr.push opA, .call opA], exec i s = .next t →
      (∀ r : RegIdx, r ≠ 7 → t.reg r = s.reg r) ∧
      (∀ s1, spDec s = .ok s1 → ∀ a : Nat, (a : Int) ≠ s1.stackAddr → Memory.read t.mem a = Memory.read s.mem a) ∧
      (∀ f, spDec s = .error f → ∀ a, Memory.read t.mem a = Memory.read s.mem a) ∧
      t.fl = s.fl ∧ t.out = s.out ∧
      ((t.run = s.run ∧ t.cause = s.cause ∧ t.info = s.info) ∨
        t = { s with run := .halted, cause := t.cause, info := t.info })

/-- POP writes no register but its operand and 7, RET none but 7, and neither writes memory, a flag or output; only a fatal condition
writes the halt record, and then nothing else is written, so a POP that raises keeps its destination (R156; the spec's decision D4,
log 9). Otherwise the program counter may change (R23, R27, R31, R41, R55). -/
def Obligations.FrameOfPoppingInstructions : Prop :=
  ∀ (opA : Byte) (s t : State),
    ∀ i ∈ [Instr.pop opA, .ret], exec i s = .next t →
      (∀ r : RegIdx, r ≠ 7 → (i = .ret ∨ r.val ≠ opA.toNat) → t.reg r = s.reg r) ∧
      (∀ a, Memory.read t.mem a = Memory.read s.mem a) ∧
      t.fl = s.fl ∧ t.out = s.out ∧
      ((t.run = s.run ∧ t.cause = s.cause ∧ t.info = s.info) ∨
        t = { s with run := .halted, cause := t.cause, info := t.info })

/-- POP and RET read the byte at the stack pointer and leave memory as it was (R55): they use that byte, the cell keeps it, and reading
it again gives the same. -/
def Obligations.PopAndRetLeaveMemory : Prop :=
  ∀ s t : State, s.run = .running →
    (∀ (opA : Byte) (a : RegIdx), opA.toNat = a.val → a ≠ 7 → exec (.pop opA) s = .next t → t.run = .running →
      t.mem = s.mem ∧ t.reg a = Memory.read s.mem s.sp.toNat ∧ Memory.read t.mem s.sp.toNat = t.reg a) ∧
    (exec .ret s = .next t → t.run = .running →
      t.mem = s.mem ∧ t.pc.toNat = (Memory.read s.mem s.sp.toNat).toNat ∧
      (Memory.read t.mem s.sp.toNat).toNat = t.pc.toNat) ∧
    (∀ opA : Byte, exec (.pop opA) s = .next t → t.mem = s.mem) ∧
    (exec .ret s = .next t → t.mem = s.mem)

/-! ### Rules of the whole machine -/

/-- The flags change only in a step that fetches CMP, and then to one of the three values of a comparison (R27). -/
def Obligations.FlagsAreSetOnlyByCmp : Prop :=
  ∀ s t : State, step s = .next t → t.fl ≠ s.fl →
    s.pc.toNat ≤ 255 ∧ Memory.read s.mem s.pc.toNat = 0xA7 ∧ (t.fl = 0x01 ∨ t.fl = 0x02 ∨ t.fl = 0x04)

/-- The output stream changes only in a step that fetches PRN, and then by one value at its end, that of the named register; nothing
removes or changes an element (R31, R132). -/
def Obligations.OutputGrowsOnlyByPrn : Prop :=
  ∀ s t : State, step s = .next t → t.out ≠ s.out →
    s.pc.toNat ≤ 254 ∧ Memory.read s.mem s.pc.toNat = 0x47 ∧
    ∃ a : RegIdx, (Memory.read s.mem (s.pc.toNat + 1)).toNat = a.val ∧ t.out = s.out ++ [s.reg a]

/-- A cell changes only in a step that fetches PUSH or CALL, and only the one below the stack pointer (R41). -/
def Obligations.MemoryChangesOnlyByPushAndCall : Prop :=
  ∀ (s t : State) (a : Nat), step s = .next t → Memory.read t.mem a ≠ Memory.read s.mem a →
    s.pc.toNat ≤ 254 ∧ (Memory.read s.mem s.pc.toNat = 0x45 ∨ Memory.read s.mem s.pc.toNat = 0x50) ∧
    0 < s.sp.toNat ∧ a = s.sp.toNat - 1

/-- No step changes the cell at address 255 (R115; it rests on the spec's decision D6, log 9). -/
def Obligations.TheLastCellIsNeverWritten : Prop :=
  ∀ s t : State, step s = .next t → Memory.read t.mem 255 = Memory.read s.mem 255

/-- The program counter after a step that goes on, as a number and so without wrap-around, for the instruction that stands at it
(R25, R26): the register named by JMP, JEQ, JNE and CALL is read in the state after the step (for CALL of register 7 the spec's
decision D8, log 7). -/
def Obligations.NextProgramCounter : Prop :=
  ∀ (s t : State) (i : Instr), s.run = .running → s.HoldsAtPc i → step s = .next t → t.run = .running →
    match i with
    | .nop => t.pc.toNat = s.pc.toNat + 1
    | .hlt => False
    | .ret => t.pc.toNat = (Memory.read s.mem s.sp.toNat).toNat
    | .push _ => t.pc.toNat = s.pc.toNat + 2
    | .pop _ => t.pc.toNat = s.pc.toNat + 2
    | .prn _ => t.pc.toNat = s.pc.toNat + 2
    | .call opA => ∃ a : RegIdx, opA.toNat = a.val ∧ t.pc.toNat = (t.reg a).toNat
    | .jmp opA => ∃ a : RegIdx, opA.toNat = a.val ∧ t.pc.toNat = (t.reg a).toNat
    | .jeq opA => ∃ a : RegIdx, opA.toNat = a.val ∧
        t.pc.toNat = if s.flagE = true then (t.reg a).toNat else s.pc.toNat + 2
    | .jne opA => ∃ a : RegIdx, opA.toNat = a.val ∧
        t.pc.toNat = if s.flagE = true then s.pc.toNat + 2 else (t.reg a).toNat
    | .ldi _ _ => t.pc.toNat = s.pc.toNat + 3
    | .add _ _ => t.pc.toNat = s.pc.toNat + 3
    | .mul _ _ => t.pc.toNat = s.pc.toNat + 3
    | .cmp _ _ => t.pc.toNat = s.pc.toNat + 3

/-- The program counter leaves memory only by sequential advance from an instruction whose last byte is at address 255, never by a jump,
a call or a return (R26, R155). -/
def Obligations.ProgramCounterLeavesMemoryOnlyInSequence : Prop :=
  ∀ s t : State, s.pc.toNat ≤ 255 → step s = .next t → 255 < t.pc.toNat →
    t.pc.toNat = 256 ∧ ∃ i : Instr, s.HoldsAtPc i ∧ s.pc.toNat + (encode i).length = 256 ∧
      ((∃ opA, i = .jeq opA ∧ s.flagE = false) ∨ (∃ opA, i = .jne opA ∧ s.flagE = true) ∨
        (i ≠ .ret ∧ i ≠ .hlt ∧ ∀ opA, i ≠ .jmp opA ∧ i ≠ .jeq opA ∧ i ≠ .jne opA ∧ i ≠ .call opA))

/-- Nothing reads L, G or the five unused bits of FL (R27): two states that differ in FL but not in E take steps that differ in FL
alone, and there either both hold the new flags or both their old ones. -/
def Obligations.OnlyTheEqualFlagIsRead : Prop :=
  ∀ (s t : State) (f : Byte), f.getLsbD 0 = s.fl.getLsbD 0 → step s = .next t →
    ∃ g, step { s with fl := f } = .next { t with fl := g } ∧ (g = t.fl ∨ (g = f ∧ t.fl = s.fl))

/-- No instruction reads the output stream (R31): a step appends the same values to whatever stream it finds and does all else alike. -/
def Obligations.OutputIsNeverRead : Prop :=
  ∀ s t : State, step s = .next t →
    ∃ added, added.length ≤ 1 ∧ t.out = s.out ++ added ∧
      ∀ o, step { s with out := o } = .next { t with out := o ++ added }

/-- Nothing reads the halt cause or the halt information (R29, R30). Whatever record a RUNNING machine holds, its step goes on with that
record untouched and all else alike, or it halts and ends in one and the same state, its new record included: the record is written at
the transition to HALTED only. Whatever record a HALTED machine holds, its step leaves it as it is (the spec's decision D14, log 2).
In the invariant: two states that differ in the record alone are the same state where they are RUNNING, since there it is None and 0
(D9, D15: log 9), and both stay as they are where they are HALTED. -/
def Obligations.HaltRecordIsNeverRead : Prop :=
  (∀ (s t : State) (c : Cause) (n : Info), s.run = .running → step s = .next t →
    (t.run = .running ∧ t.cause = s.cause ∧ t.info = s.info ∧
      step { s with cause := c, info := n } = .next { t with cause := c, info := n }) ∨
    (t.run = .halted ∧ step { s with cause := c, info := n } = .next t)) ∧
  (∀ (s : State) (c : Cause) (n : Info), s.run = .halted →
    step { s with cause := c, info := n } = .next { s with cause := c, info := n }) ∧
  (∀ s t u : State, s.Inv → u.Inv → u = { s with cause := u.cause, info := u.info } → step s = .next t →
    (s.run = .running ∧ u = s) ∨ (s.run = .halted ∧ t = s ∧ step u = .next u))

/-! ### Properties of pairs of instructions -/

/-- PUSH then POP of the same register, other than 7, where the stack pointer is not 0: every register, FL and the stack pointer are as
before, `pc` is 4 further, and one cell, below the stack pointer, holds the register's value (R115, with its premises). -/
def Obligations.PushThenPopRoundTrips : Prop :=
  ∀ (s : State) (opA : Byte) (a : RegIdx), opA.toNat = a.val → a ≠ 7 → 0 < s.sp.toNat →
    ∃ t m, exec (.push opA) s = .next t ∧ exec (.pop opA) t = .next { s with mem := m, pc := s.pc + 4 } ∧
      ∀ addr, Memory.read m addr = if addr = s.sp.toNat - 1 then s.reg a else Memory.read s.mem addr

/-- CALL, then whatever leaves the stack pointer and the cell it addresses as the CALL left them, then RET: the program counter is that
of the instruction after the CALL and the stack pointer is what it was before it (R126, with its premises). -/
def Obligations.CallThenRetReturns : Prop :=
  ∀ (s t u v : State) (opA : Byte), opA.toNat ≤ 7 → 0 < s.sp.toNat → s.pc.toNat ≤ 253 → exec (.call opA) s = .next t →
    u.sp = t.sp → Memory.read u.mem u.sp.toNat = Memory.read t.mem t.sp.toNat → exec .ret u = .next v →
    v.pc.toNat = s.pc.toNat + 2 ∧ v.sp = s.sp

/-- A byte stored by PUSH or CALL is what the very next fetch sees at that address, as opcode or as operand, with nothing in between;
it may be a byte of the storing instruction itself (R53). A CALL stores its return address (R124), a PUSH its register's value (R112), for
register 7 the value after the decrement (the spec's decision D8, log 7). -/
def Obligations.StoredByteIsFetchedNext : Prop :=
  ∀ (s t : State) (opA : Byte) (i : Instr), (i = .push opA ∨ i = .call opA) → s.run = .running → exec i s = .next t →
    t.run = .running →
    ∃ v, (i = .call opA → v = BitVec.ofNat 8 (s.pc.toNat + 2)) ∧
      (i = .push opA → ∀ a : RegIdx, opA.toNat = a.val → v = t.reg a) ∧
      ∀ k, k < 3 → t.pc.toNat + k = s.sp.toNat - 1 → (bytesAtPc t)[k]? = some v
end

