-- ==== Sys2Proof/Laws/Memory.lean ====
section
/-! SUPPORT. The laws of memory as data: what a read gives after each operation, and that each keeps the canonical form. The read laws
hold for every list, canonical or not. -/

namespace Sys2Proof.Machine

@[simp] theorem Memory.read_nil (a : Nat) : Memory.read [] a = Config.memInit := rfl

@[simp] theorem Memory.read_cons (b : Nat) (v : Byte) (m : Memory) (a : Nat) :
    Memory.read ((b, v) :: m) a = if b = a then v else Memory.read m a := rfl

/-- An address that no entry lists reads as a cell nothing has written. -/
theorem Memory.read_of_not_listed (m : Memory) (a : Nat) (h : ∀ c ∈ m, c.1 ≠ a) : Memory.read m a = Config.memInit := by
  induction m with
  | nil => rfl
  | cons c m ih =>
    rw [Memory.read_cons, if_neg (h c (by simp))]
    exact ih fun d hd => h d (by simp [hd])

/-- Erasing an address leaves every other one. -/
theorem Memory.read_erase (m : Memory) (a b : Nat) :
    Memory.read (Memory.erase m a) b = if a = b then Config.memInit else Memory.read m b := by
  induction m with
  | nil => simp [Memory.erase]
  | cons c m ih =>
    unfold Memory.erase at ih ⊢
    by_cases h : c.1 = a
    · rw [List.filter_cons_of_neg (by simp [h]), ih, Memory.read_cons, h]
      split <;> rfl
    · rw [List.filter_cons_of_pos (by simp [h]), Memory.read_cons, Memory.read_cons, ih]
      split <;> split <;> simp_all

/-- No entry is left for an erased address. -/
theorem Memory.not_listed_erase (m : Memory) (a : Nat) : ∀ c ∈ Memory.erase m a, c.1 ≠ a := by
  simp [Memory.erase]

/-- Placing an entry for an address that is not listed. -/
theorem Memory.read_insert (m : Memory) (a : Nat) (v : Byte) (b : Nat) (h : ∀ c ∈ m, c.1 ≠ a) :
    Memory.read (Memory.insert m a v) b = if a = b then v else Memory.read m b := by
  induction m with
  | nil => rfl
  | cons c m ih =>
    unfold Memory.insert
    split
    · rfl
    · rw [Memory.read_cons, Memory.read_cons, ih fun d hd => h d (by simp [hd])]
      have := h c (by simp)
      split <;> split <;> simp_all

/-- A read after a write: the value written at its address, the old value anywhere else (R44, R45). -/
theorem Memory.read_write (m : Memory) (a : Nat) (v : Byte) (b : Nat) :
    Memory.read (Memory.write m a v) b = if a = b then v else Memory.read m b := by
  unfold Memory.write
  split
  · rw [Memory.read_erase]
    simp_all
  · rw [Memory.read_insert _ _ _ _ (Memory.not_listed_erase m a), Memory.read_erase]
    split <;> simp_all

@[simp] theorem Memory.read_write_same (m : Memory) (a : Nat) (v : Byte) : Memory.read (Memory.write m a v) a = v := by
  simp [Memory.read_write]

theorem Memory.read_write_other (m : Memory) (a : Nat) (v : Byte) (b : Nat) (h : b ≠ a) :
    Memory.read (Memory.write m a v) b = Memory.read m b := by
  rw [Memory.read_write, if_neg (Ne.symm h)]

@[simp] theorem Memory.wf_nil : Memory.wf [] := by simp [Memory.wf]

theorem Memory.wf_erase {m : Memory} (h : Memory.wf m) (a : Nat) : Memory.wf (Memory.erase m a) :=
  ⟨h.1.filter _, fun c hc => h.2 c (List.mem_filter.mp hc).1⟩

theorem Memory.mem_insert {m : Memory} {a : Nat} {v : Byte} {c : Host.Cell} (h : c ∈ Memory.insert m a v) : c = (a, v) ∨ c ∈ m := by
  induction m with
  | nil => simpa [Memory.insert] using h
  | cons d m ih =>
    unfold Memory.insert at h
    split at h
    · simpa using h
    · rcases List.mem_cons.mp h with h | h
      · simp [h]
      · rcases ih h with h | h <;> simp [h]

theorem Memory.wf_insert {m : Memory} (h : Memory.wf m) {a : Nat} (v : Byte) (hm : ∀ c ∈ m, c.1 ≠ a) (ha : a < Config.memSize)
    (hv : v ≠ Config.memInit) : Memory.wf (Memory.insert m a v) := by
  refine ⟨?_, fun c hc => ?_⟩
  · obtain ⟨hp, -⟩ := h
    induction m with
    | nil => simp [Memory.insert]
    | cons d m ih =>
      obtain ⟨hd, hp⟩ := List.pairwise_cons.mp hp
      unfold Memory.insert
      split
      case isTrue hlt =>
        refine List.pairwise_cons.mpr ⟨fun c hc => ?_, List.pairwise_cons.mpr ⟨hd, hp⟩⟩
        rcases List.mem_cons.mp hc with rfl | hc
        · exact hlt
        · exact Nat.lt_trans hlt (hd c hc)
      case isFalse hge =>
        refine List.pairwise_cons.mpr ⟨fun c hc => ?_, ih (fun c hc => hm c (by simp [hc])) hp⟩
        rcases Memory.mem_insert hc with rfl | hc
        · have := hm d (by simp)
          show d.1 < a
          omega
        · exact hd c hc
  · rcases Memory.mem_insert hc with rfl | hc
    · exact ⟨ha, hv⟩
    · exact h.2 c hc

/-- A write inside the address space keeps the canonical form. -/
theorem Memory.wf_write {m : Memory} (h : Memory.wf m) {a : Nat} (v : Byte) (ha : a < Config.memSize) :
    Memory.wf (Memory.write m a v) := by
  unfold Memory.write
  split
  · exact Memory.wf_erase h a
  case isFalse hv => exact Memory.wf_insert (Memory.wf_erase h a) v (Memory.not_listed_erase m a) ha hv

/-- Placing bytes keeps the canonical form. -/
theorem Memory.wf_place {m : Memory} (h : Memory.wf m) (a : Nat) (vs : List Byte) : Memory.wf (Memory.place m a vs) := by
  induction vs generalizing m a with
  | nil => exact h
  | cons v vs ih =>
    unfold Memory.place
    split
    case isTrue ha => exact ih (Memory.wf_write h v ha) (a + 1)
    case isFalse => exact h

/-- The memory after any reset is in canonical form. -/
theorem Memory.wf_loadImage (image : List Byte) : Memory.wf (loadImage image) := Memory.wf_place Memory.wf_nil _ _

theorem Memory.wf_reset : Memory.wf State.reset.mem := Memory.wf_nil

end Sys2Proof.Machine
end

