-- ==== Sys2Proof/Laws/State.lean ====
section
/-! SUPPORT. What each update of the state does to each component: one lemma per component and update, true by definition, so that no
later proof unfolds a record update; then reading a register after each update. -/

namespace Sys2Proof.Machine

/-! ### `State.setReg` -/

@[simp] theorem State.setReg_regs (s : State) (i : RegIdx) (v : Byte) : (s.setReg i v).regs = s.regs.set i v := rfl
@[simp] theorem State.setReg_pc (s : State) (i : RegIdx) (v : Byte) : (s.setReg i v).pc = s.pc := rfl
@[simp] theorem State.setReg_fl (s : State) (i : RegIdx) (v : Byte) : (s.setReg i v).fl = s.fl := rfl
@[simp] theorem State.setReg_mem (s : State) (i : RegIdx) (v : Byte) : (s.setReg i v).mem = s.mem := rfl
@[simp] theorem State.setReg_run (s : State) (i : RegIdx) (v : Byte) : (s.setReg i v).run = s.run := rfl
@[simp] theorem State.setReg_cause (s : State) (i : RegIdx) (v : Byte) : (s.setReg i v).cause = s.cause := rfl
@[simp] theorem State.setReg_info (s : State) (i : RegIdx) (v : Byte) : (s.setReg i v).info = s.info := rfl
@[simp] theorem State.setReg_out (s : State) (i : RegIdx) (v : Byte) : (s.setReg i v).out = s.out := rfl

/-! ### `State.setSp` -/

@[simp] theorem State.setSp_regs (s : State) (v : Byte) : (s.setSp v).regs = s.regs.set Config.sp v := rfl
@[simp] theorem State.setSp_pc (s : State) (v : Byte) : (s.setSp v).pc = s.pc := rfl
@[simp] theorem State.setSp_fl (s : State) (v : Byte) : (s.setSp v).fl = s.fl := rfl
@[simp] theorem State.setSp_mem (s : State) (v : Byte) : (s.setSp v).mem = s.mem := rfl
@[simp] theorem State.setSp_run (s : State) (v : Byte) : (s.setSp v).run = s.run := rfl
@[simp] theorem State.setSp_cause (s : State) (v : Byte) : (s.setSp v).cause = s.cause := rfl
@[simp] theorem State.setSp_info (s : State) (v : Byte) : (s.setSp v).info = s.info := rfl
@[simp] theorem State.setSp_out (s : State) (v : Byte) : (s.setSp v).out = s.out := rfl

/-! ### `State.setPc` -/

@[simp] theorem State.setPc_regs (s : State) (t : Pc) : (s.setPc t).regs = s.regs := rfl
@[simp] theorem State.setPc_pc (s : State) (t : Pc) : (s.setPc t).pc = t := rfl
@[simp] theorem State.setPc_fl (s : State) (t : Pc) : (s.setPc t).fl = s.fl := rfl
@[simp] theorem State.setPc_mem (s : State) (t : Pc) : (s.setPc t).mem = s.mem := rfl
@[simp] theorem State.setPc_run (s : State) (t : Pc) : (s.setPc t).run = s.run := rfl
@[simp] theorem State.setPc_cause (s : State) (t : Pc) : (s.setPc t).cause = s.cause := rfl
@[simp] theorem State.setPc_info (s : State) (t : Pc) : (s.setPc t).info = s.info := rfl
@[simp] theorem State.setPc_out (s : State) (t : Pc) : (s.setPc t).out = s.out := rfl

/-! ### `State.advance` -/

@[simp] theorem State.advance_regs (s : State) (n : Nat) : (s.advance n).regs = s.regs := rfl
@[simp] theorem State.advance_pc (s : State) (n : Nat) : (s.advance n).pc = s.pc + BitVec.ofNat 9 n := rfl
@[simp] theorem State.advance_fl (s : State) (n : Nat) : (s.advance n).fl = s.fl := rfl
@[simp] theorem State.advance_mem (s : State) (n : Nat) : (s.advance n).mem = s.mem := rfl
@[simp] theorem State.advance_run (s : State) (n : Nat) : (s.advance n).run = s.run := rfl
@[simp] theorem State.advance_cause (s : State) (n : Nat) : (s.advance n).cause = s.cause := rfl
@[simp] theorem State.advance_info (s : State) (n : Nat) : (s.advance n).info = s.info := rfl
@[simp] theorem State.advance_out (s : State) (n : Nat) : (s.advance n).out = s.out := rfl

/-! ### `State.jump` -/

@[simp] theorem State.jump_regs (s : State) (v : Byte) : (s.jump v).regs = s.regs := rfl
@[simp] theorem State.jump_pc (s : State) (v : Byte) : (s.jump v).pc = zext9 v := rfl
@[simp] theorem State.jump_fl (s : State) (v : Byte) : (s.jump v).fl = s.fl := rfl
@[simp] theorem State.jump_mem (s : State) (v : Byte) : (s.jump v).mem = s.mem := rfl
@[simp] theorem State.jump_run (s : State) (v : Byte) : (s.jump v).run = s.run := rfl
@[simp] theorem State.jump_cause (s : State) (v : Byte) : (s.jump v).cause = s.cause := rfl
@[simp] theorem State.jump_info (s : State) (v : Byte) : (s.jump v).info = s.info := rfl
@[simp] theorem State.jump_out (s : State) (v : Byte) : (s.jump v).out = s.out := rfl

/-! ### `State.setFl` -/

@[simp] theorem State.setFl_regs (s : State) (v : Byte) : (s.setFl v).regs = s.regs := rfl
@[simp] theorem State.setFl_pc (s : State) (v : Byte) : (s.setFl v).pc = s.pc := rfl
@[simp] theorem State.setFl_fl (s : State) (v : Byte) : (s.setFl v).fl = v := rfl
@[simp] theorem State.setFl_mem (s : State) (v : Byte) : (s.setFl v).mem = s.mem := rfl
@[simp] theorem State.setFl_run (s : State) (v : Byte) : (s.setFl v).run = s.run := rfl
@[simp] theorem State.setFl_cause (s : State) (v : Byte) : (s.setFl v).cause = s.cause := rfl
@[simp] theorem State.setFl_info (s : State) (v : Byte) : (s.setFl v).info = s.info := rfl
@[simp] theorem State.setFl_out (s : State) (v : Byte) : (s.setFl v).out = s.out := rfl

/-! ### `State.setMem` -/

@[simp] theorem State.setMem_regs (s : State) (m : Memory) : (s.setMem m).regs = s.regs := rfl
@[simp] theorem State.setMem_pc (s : State) (m : Memory) : (s.setMem m).pc = s.pc := rfl
@[simp] theorem State.setMem_fl (s : State) (m : Memory) : (s.setMem m).fl = s.fl := rfl
@[simp] theorem State.setMem_mem (s : State) (m : Memory) : (s.setMem m).mem = m := rfl
@[simp] theorem State.setMem_run (s : State) (m : Memory) : (s.setMem m).run = s.run := rfl
@[simp] theorem State.setMem_cause (s : State) (m : Memory) : (s.setMem m).cause = s.cause := rfl
@[simp] theorem State.setMem_info (s : State) (m : Memory) : (s.setMem m).info = s.info := rfl
@[simp] theorem State.setMem_out (s : State) (m : Memory) : (s.setMem m).out = s.out := rfl

/-! ### `State.emit` -/

@[simp] theorem State.emit_regs (s : State) (v : Byte) : (s.emit v).regs = s.regs := rfl
@[simp] theorem State.emit_pc (s : State) (v : Byte) : (s.emit v).pc = s.pc := rfl
@[simp] theorem State.emit_fl (s : State) (v : Byte) : (s.emit v).fl = s.fl := rfl
@[simp] theorem State.emit_mem (s : State) (v : Byte) : (s.emit v).mem = s.mem := rfl
@[simp] theorem State.emit_run (s : State) (v : Byte) : (s.emit v).run = s.run := rfl
@[simp] theorem State.emit_cause (s : State) (v : Byte) : (s.emit v).cause = s.cause := rfl
@[simp] theorem State.emit_info (s : State) (v : Byte) : (s.emit v).info = s.info := rfl
@[simp] theorem State.emit_out (s : State) (v : Byte) : (s.emit v).out = s.out ++ [v] := rfl

/-! ### `State.stop` -/

@[simp] theorem State.stop_regs (s : State) (c : Cause) (i : Info) : (s.stop c i).regs = s.regs := rfl
@[simp] theorem State.stop_pc (s : State) (c : Cause) (i : Info) : (s.stop c i).pc = s.pc := rfl
@[simp] theorem State.stop_fl (s : State) (c : Cause) (i : Info) : (s.stop c i).fl = s.fl := rfl
@[simp] theorem State.stop_mem (s : State) (c : Cause) (i : Info) : (s.stop c i).mem = s.mem := rfl
@[simp] theorem State.stop_run (s : State) (c : Cause) (i : Info) : (s.stop c i).run = .halted := rfl
@[simp] theorem State.stop_cause (s : State) (c : Cause) (i : Info) : (s.stop c i).cause = c := rfl
@[simp] theorem State.stop_info (s : State) (c : Cause) (i : Info) : (s.stop c i).info = i := rfl
@[simp] theorem State.stop_out (s : State) (c : Cause) (i : Info) : (s.stop c i).out = s.out := rfl

/-! ### `State.halt` -/

@[simp] theorem State.halt_regs (s : State) : (s.halt).regs = s.regs := rfl
@[simp] theorem State.halt_pc (s : State) : (s.halt).pc = s.pc := rfl
@[simp] theorem State.halt_fl (s : State) : (s.halt).fl = s.fl := rfl
@[simp] theorem State.halt_mem (s : State) : (s.halt).mem = s.mem := rfl
@[simp] theorem State.halt_run (s : State) : (s.halt).run = .halted := rfl
@[simp] theorem State.halt_cause (s : State) : (s.halt).cause = .halt := rfl
@[simp] theorem State.halt_info (s : State) : (s.halt).info = .int 0 := rfl
@[simp] theorem State.halt_out (s : State) : (s.halt).out = s.out := rfl

/-! ### `raise` -/

@[simp] theorem raise_regs (f : Fatal) (s : State) : (raise f s).regs = s.regs := rfl
@[simp] theorem raise_pc (f : Fatal) (s : State) : (raise f s).pc = s.pc := rfl
@[simp] theorem raise_fl (f : Fatal) (s : State) : (raise f s).fl = s.fl := rfl
@[simp] theorem raise_mem (f : Fatal) (s : State) : (raise f s).mem = s.mem := rfl
@[simp] theorem raise_run (f : Fatal) (s : State) : (raise f s).run = .halted := rfl
@[simp] theorem raise_cause (f : Fatal) (s : State) : (raise f s).cause = f.cause := rfl
@[simp] theorem raise_info (f : Fatal) (s : State) : (raise f s).info = f.info := rfl
@[simp] theorem raise_out (f : Fatal) (s : State) : (raise f s).out = s.out := rfl

/-! ### Reading a register -/

@[simp] theorem State.reg_setReg (s : State) (i j : RegIdx) (v : Byte) : (s.setReg i v).reg j = if i = j then v else s.reg j := by
  simp [State.reg, Vector.getElem_set, Fin.ext_iff]

@[simp] theorem State.reg_setSp (s : State) (j : RegIdx) (v : Byte) :
    (s.setSp v).reg j = if Config.sp = j then v else s.reg j := State.reg_setReg s Config.sp j v

@[simp] theorem State.reg_setPc (s : State) (t : Pc) (j : RegIdx) : (s.setPc t).reg j = s.reg j := rfl
@[simp] theorem State.reg_advance (s : State) (n : Nat) (j : RegIdx) : (s.advance n).reg j = s.reg j := rfl
@[simp] theorem State.reg_jump (s : State) (v : Byte) (j : RegIdx) : (s.jump v).reg j = s.reg j := rfl
@[simp] theorem State.reg_setFl (s : State) (v : Byte) (j : RegIdx) : (s.setFl v).reg j = s.reg j := rfl
@[simp] theorem State.reg_setMem (s : State) (m : Memory) (j : RegIdx) : (s.setMem m).reg j = s.reg j := rfl
@[simp] theorem State.reg_emit (s : State) (v : Byte) (j : RegIdx) : (s.emit v).reg j = s.reg j := rfl
@[simp] theorem State.reg_stop (s : State) (c : Cause) (i : Info) (j : RegIdx) : (s.stop c i).reg j = s.reg j := rfl
@[simp] theorem State.reg_halt (s : State) (j : RegIdx) : s.halt.reg j = s.reg j := rfl
@[simp] theorem reg_raise (f : Fatal) (s : State) (j : RegIdx) : (raise f s).reg j = s.reg j := rfl

/-! ### Reading the stack pointer -/

@[simp] theorem State.sp_setReg (s : State) (i : RegIdx) (v : Byte) : (s.setReg i v).sp = if i = Config.sp then v else s.sp :=
  State.reg_setReg s i Config.sp v

@[simp] theorem State.sp_setSp (s : State) (v : Byte) : (s.setSp v).sp = v := by simp [State.sp]

@[simp] theorem State.sp_setPc (s : State) (t : Pc) : (s.setPc t).sp = s.sp := rfl
@[simp] theorem State.sp_setMem (s : State) (m : Memory) : (s.setMem m).sp = s.sp := rfl
@[simp] theorem State.sp_setFl (s : State) (v : Byte) : (s.setFl v).sp = s.sp := rfl

/-! ### Reset -/

@[simp] theorem State.reset_run : State.reset.run = .running := rfl
@[simp] theorem State.reset_pc : State.reset.pc = 0 := rfl
@[simp] theorem State.reset_mem : State.reset.mem = [] := rfl

/-- A reset with an image differs from the reset with the empty one in memory alone. -/
@[simp] theorem resetWith_mem (image : List Byte) : (resetWith image).mem = loadImage image := rfl

theorem resetWith_nil : resetWith [] = State.reset := rfl

end Sys2Proof.Machine
end

