-- ==== Sys2Proof/Laws/Ops.lean ====
section
/-! SUPPORT. One lemma per shared operation that says everything it can do. -/

namespace Sys2Proof.Machine

/-! ### The end of a step -/

@[simp] theorem commit_ok (s t : State) : commit s (.ok t) = .next t := rfl

@[simp] theorem commit_error (s : State) (f : Fatal) : commit s (.error f) = .next (raise f s) := rfl

/-- A step that ends has either taken effect whole or raised a fatal condition on the state it began in. -/
theorem commit_cases {s t : State} {r : Except Fatal State} (h : commit s r = .next t) :
    r = .ok t ∨ ∃ f, r = .error f ∧ t = raise f s := by
  cases r with
  | ok u => simp_all
  | error f => exact .inr ⟨f, rfl, by simpa using h.symm⟩

/-! ### Memory accesses -/

theorem outside_iff (addr : Int) : outside addr = true ↔ addr < 0 ∨ 255 < addr := by simp [outside]

theorem not_outside_toNat (v : Byte) : outside (v.toNat : Int) = false := by
  have := v.isLt
  simp only [outside, Bool.or_eq_false_iff, decide_eq_false_iff_not]
  omega

theorem memRead_inside {addr : Int} (s : State) (h0 : 0 ≤ addr) (h1 : addr ≤ 255) :
    memRead addr s = .ok (Memory.read s.mem addr.toNat) := by
  rw [memRead, if_neg]
  rw [outside_iff]
  omega

theorem memRead_outside {addr : Int} (s : State) (h : addr < 0 ∨ 255 < addr) : memRead addr s = .error (.outOfBounds addr) := by
  rw [memRead, if_pos ((outside_iff addr).mpr h)]

theorem memWrite_inside {addr : Int} (v : Byte) (s : State) (h0 : 0 ≤ addr) (h1 : addr ≤ 255) :
    memWrite addr v s = .ok (s.setMem (Memory.write s.mem addr.toNat v)) := by
  rw [memWrite, if_neg]
  rw [outside_iff]
  omega

theorem memWrite_outside {addr : Int} (v : Byte) (s : State) (h : addr < 0 ∨ 255 < addr) :
    memWrite addr v s = .error (.outOfBounds addr) := by
  rw [memWrite, if_pos ((outside_iff addr).mpr h)]

/-- The stack pointer always addresses memory, so the read of a pop never raises (R111). -/
@[simp] theorem loadTop_eq (s : State) : loadTop s = .ok (Memory.read s.mem s.sp.toNat) := by
  simp [loadTop, memRead, State.stackAddr, not_outside_toNat]

/-- The stack pointer always addresses memory, so the write of a push never raises (R110). -/
@[simp] theorem storeTop_eq (v : Byte) (s : State) : storeTop v s = .ok (s.setMem (Memory.write s.mem s.sp.toNat v)) := by
  simp [storeTop, memWrite, State.stackAddr, not_outside_toNat]

/-! ### The stack pointer -/

theorem spDec_zero {s : State} (h : s.sp.toNat = 0) : spDec s = .error (.outOfBounds (-1)) := by
  simp [spDec, State.stackAddr, h]

theorem spDec_pos {s : State} (h : 0 < s.sp.toNat) : spDec s = .ok (s.setSp (s.sp - 1)) := by
  have h256 := s.sp.isLt
  have hlt : ¬ (s.sp.toNat : Int) - 1 < 0 := by omega
  rw [spDec, State.stackAddr, if_neg hlt]
  congr 2
  apply BitVec.eq_of_toNat_eq
  rw [BitVec.toNat_ofInt, BitVec.toNat_sub]
  simp only [BitVec.ofNat_eq_ofNat, BitVec.toNat_ofNat]
  omega

/-- Everything a decrement of the stack pointer can do (R110). -/
theorem spDec_cases (s : State) :
    (s.sp.toNat = 0 ∧ spDec s = .error (.outOfBounds (-1))) ∨ (0 < s.sp.toNat ∧ spDec s = .ok (s.setSp (s.sp - 1))) := by
  rcases Nat.eq_zero_or_pos s.sp.toNat with h | h
  · exact .inl ⟨h, spDec_zero h⟩
  · exact .inr ⟨h, spDec_pos h⟩

theorem spInc_max {s : State} (h : s.sp.toNat = 255) : spInc s = .error (.outOfBounds 256) := by
  simp [spInc, State.stackAddr, h]

theorem spInc_lt {s : State} (h : s.sp.toNat < 255) : spInc s = .ok (s.setSp (s.sp + 1)) := by
  have hle : ¬ (s.sp.toNat : Int) + 1 > 255 := by omega
  rw [spInc, State.stackAddr, if_neg hle]
  rfl

/-- Everything an increment of the stack pointer can do (R111). -/
theorem spInc_cases (s : State) :
    (s.sp.toNat = 255 ∧ spInc s = .error (.outOfBounds 256)) ∨ (s.sp.toNat < 255 ∧ spInc s = .ok (s.setSp (s.sp + 1))) := by
  have := s.sp.isLt
  rcases (by omega : s.sp.toNat = 255 ∨ s.sp.toNat < 255) with h | h
  · exact .inl ⟨h, spInc_max h⟩
  · exact .inr ⟨h, spInc_lt h⟩

/-! ### Operands -/

theorem regidx_names {b : Byte} {i : RegIdx} (h : b.toNat = i.val) : regidx b = .ok i := by
  have hlt : b.toNat < Config.numRegs := h ▸ i.isLt
  rw [regidx, dif_pos hlt]
  exact congrArg Except.ok (Fin.ext h)

theorem regidx_bad {b : Byte} (h : 8 ≤ b.toNat) : regidx b = .error (.invalidRegister b) := by
  have hge : ¬ b.toNat < Config.numRegs := Nat.not_lt.mpr h
  simp [regidx, hge]

/-- Everything the validation of a register operand can do (R66). -/
theorem regidx_cases (b : Byte) :
    (∃ i : RegIdx, b.toNat = i.val ∧ regidx b = .ok i) ∨ (8 ≤ b.toNat ∧ regidx b = .error (.invalidRegister b)) := by
  rcases Nat.lt_or_ge b.toNat 8 with h | h
  · exact .inl ⟨⟨b.toNat, h⟩, rfl, regidx_names rfl⟩
  · exact .inr ⟨h, regidx_bad h⟩

/-- Everything the validation of two register operands can do, in operand order (R86). -/
theorem regidx2_cases (opA opB : Byte) :
    (∃ a b : RegIdx, opA.toNat = a.val ∧ opB.toNat = b.val ∧ regidx2 opA opB = .ok (a, b)) ∨
    (8 ≤ opA.toNat ∧ regidx2 opA opB = .error (.invalidRegister opA)) ∨
    (opA.toNat < 8 ∧ 8 ≤ opB.toNat ∧ regidx2 opA opB = .error (.invalidRegister opB)) := by
  rcases regidx_cases opA with ⟨a, ha, hA⟩ | ⟨ha, hA⟩
  · rcases regidx_cases opB with ⟨b, hb, hB⟩ | ⟨hb, hB⟩
    · exact .inl ⟨a, b, ha, hb, by simp [regidx2, hA, hB, bind, Except.bind, pure, Except.pure]⟩
    · exact .inr (.inr ⟨ha ▸ a.isLt, hb, by simp [regidx2, hA, hB, bind, Except.bind]⟩)
  · exact .inr (.inl ⟨ha, by simp [regidx2, hA, bind, Except.bind]⟩)

theorem zext9_toNat (v : Byte) : (zext9 v).toNat = v.toNat := by
  have := v.isLt
  simp only [zext9, BitVec.truncate_eq_setWidth, BitVec.toNat_setWidth]
  omega

/-- Everything the return address of CALL can be (R124). -/
theorem returnAddress_cases (s : State) :
    (s.pc.toNat ≤ 253 ∧ returnAddress s = .ok (BitVec.ofNat 8 (s.pc.toNat + 2))) ∨
    (254 ≤ s.pc.toNat ∧ returnAddress s = .error (.outOfBounds 256)) := by
  rcases Nat.lt_or_ge s.pc.toNat 254 with h | h
  · exact .inl ⟨by omega, by rw [returnAddress]; exact if_neg (by omega)⟩
  · exact .inr ⟨h, by rw [returnAddress]; exact if_pos (by omega)⟩

/-! ### Flags -/

/-- A comparison sets exactly one of the three flags (R103). -/
theorem compareFlags_cases (p q : Byte) :
    (p.toNat = q.toNat ∧ compareFlags p q = 0x01) ∨ (p.toNat < q.toNat ∧ compareFlags p q = 0x04) ∨
    (q.toNat < p.toNat ∧ compareFlags p q = 0x02) := by
  rcases Nat.lt_trichotomy p.toNat q.toNat with h | h | h
  · exact .inr (.inl ⟨h, by rw [compareFlags, if_neg (by omega), if_pos h]⟩)
  · exact .inl ⟨h, by rw [compareFlags, if_pos h]⟩
  · exact .inr (.inr ⟨h, by rw [compareFlags, if_neg (by omega), if_neg (by omega)]⟩)

end Sys2Proof.Machine
end

