-- ==== Sys2Proof/Laws/Fetch.lean ====
section
/-! SUPPORT. What a fetch and a step can do. -/

namespace Sys2Proof.Machine

/-- The bytes a fetch sees when the longest instruction fits in memory. -/
theorem bytesAtPc_three {s : State} (h : s.pc.toNat ≤ 253) :
    bytesAtPc s = [Memory.read s.mem s.pc.toNat, Memory.read s.mem (s.pc.toNat + 1), Memory.read s.mem (s.pc.toNat + 2)] := by
  have h0 := memRead_inside (addr := s.pc.toNat) s (by omega) (by omega)
  have h1 := memRead_inside (addr := s.pc.toNat + 1) s (by omega) (by omega)
  have h2 := memRead_inside (addr := s.pc.toNat + 1 + 1) s (by omega) (by omega)
  simp only [bytesAtPc, Config.maxLength, fetchBytes, h0, h1, h2]
  rfl

/-- The bytes a fetch sees at address 254. -/
theorem bytesAtPc_two {s : State} (h : s.pc.toNat = 254) :
    bytesAtPc s = [Memory.read s.mem 254, Memory.read s.mem 255] := by
  have h0 := memRead_inside (addr := 254) s (by omega) (by omega)
  have h1 := memRead_inside (addr := 255) s (by omega) (by omega)
  have h2 := memRead_outside (addr := 256) s (by omega)
  simp [bytesAtPc, Config.maxLength, fetchBytes, h, h0, h1, h2]

/-- The byte a fetch sees at address 255. -/
theorem bytesAtPc_one {s : State} (h : s.pc.toNat = 255) : bytesAtPc s = [Memory.read s.mem 255] := by
  have h0 := memRead_inside (addr := 255) s (by omega) (by omega)
  have h1 := memRead_outside (addr := 256) s (by omega)
  simp [bytesAtPc, Config.maxLength, fetchBytes, h, h0, h1]

/-- Everything a fetch can do. -/
theorem fetch_cases (s : State) :
    (255 < s.pc.toNat ∧ fetch s = .error (.runawayProgram s.pc)) ∨
    (s.pc.toNat ≤ 255 ∧ ∃ i rest, decode (bytesAtPc s) = .ok (i, rest) ∧ fetch s = .ok i) ∨
    (s.pc.toNat ≤ 255 ∧ ∃ e, decode (bytesAtPc s) = .error e ∧ fetch s = .error (fetchFatal s e)) := by
  unfold fetch
  rcases Nat.lt_or_ge 255 s.pc.toNat with h | h
  · exact .inl ⟨h, if_pos h⟩
  · rw [if_neg (by omega)]
    cases hd : decode (bytesAtPc s) with
    | ok r => exact .inr (.inl ⟨h, r.1, r.2, rfl, rfl⟩)
    | error e => exact .inr (.inr ⟨h, e, rfl, rfl⟩)

/-- Everything a step can do (R80, R81). -/
theorem step_cases {s t : State} (h : step s = .next t) :
    (s.run = .halted ∧ t = s) ∨
    (s.run = .running ∧ ∃ i, fetch s = .ok i ∧ exec i s = .next t) ∨
    (s.run = .running ∧ ∃ f, fetch s = .error f ∧ t = raise f s) := by
  unfold step at h
  cases hr : s.run with
  | halted => exact .inl ⟨rfl, by simpa [hr] using h.symm⟩
  | running =>
    cases hf : fetch s with
    | ok i => exact .inr (.inl ⟨rfl, i, rfl, by simpa [hr, hf] using h⟩)
    | error f => exact .inr (.inr ⟨rfl, f, rfl, by simpa [hr, hf] using h.symm⟩)

end Sys2Proof.Machine
end

