-- ==== Sys2Proof/Laws/PerInstr.lean ====
section
/-! SUPPORT. Statements about every instruction as syntax, one lemma per constructor. -/

namespace Sys2Proof.Laws

/-- The opcode of the instruction is in the dispatch table, and the two highest bits of the opcode count its operand bytes (R62, R63). -/
def OperandCount.Statement (i : Instr) : Prop := (dispatch i.opcode).isSome = true ∧ i.operandBytes.length = nops i.opcode

theorem OperandCount.nop : OperandCount.Statement .nop := ⟨rfl, rfl⟩
theorem OperandCount.hlt : OperandCount.Statement .hlt := ⟨rfl, rfl⟩
theorem OperandCount.ret : OperandCount.Statement .ret := ⟨rfl, rfl⟩
theorem OperandCount.push (opA : Byte) : OperandCount.Statement (.push opA) := ⟨rfl, (by decide : 1 = nops 0x45)⟩
theorem OperandCount.pop (opA : Byte) : OperandCount.Statement (.pop opA) := ⟨rfl, (by decide : 1 = nops 0x46)⟩
theorem OperandCount.prn (opA : Byte) : OperandCount.Statement (.prn opA) := ⟨rfl, (by decide : 1 = nops 0x47)⟩
theorem OperandCount.call (opA : Byte) : OperandCount.Statement (.call opA) := ⟨rfl, (by decide : 1 = nops 0x50)⟩
theorem OperandCount.jmp (opA : Byte) : OperandCount.Statement (.jmp opA) := ⟨rfl, (by decide : 1 = nops 0x54)⟩
theorem OperandCount.jeq (opA : Byte) : OperandCount.Statement (.jeq opA) := ⟨rfl, (by decide : 1 = nops 0x55)⟩
theorem OperandCount.jne (opA : Byte) : OperandCount.Statement (.jne opA) := ⟨rfl, (by decide : 1 = nops 0x56)⟩
theorem OperandCount.ldi (opA imm : Byte) : OperandCount.Statement (.ldi opA imm) := ⟨rfl, (by decide : 2 = nops 0x82)⟩
theorem OperandCount.add (opA opB : Byte) : OperandCount.Statement (.add opA opB) := ⟨rfl, (by decide : 2 = nops 0xA0)⟩
theorem OperandCount.mul (opA opB : Byte) : OperandCount.Statement (.mul opA opB) := ⟨rfl, (by decide : 2 = nops 0xA2)⟩
theorem OperandCount.cmp (opA opB : Byte) : OperandCount.Statement (.cmp opA opB) := ⟨rfl, (by decide : 2 = nops 0xA7)⟩

end Sys2Proof.Laws
end

