-- ==== Sys2Proof/Machine/Text.lean ====
section
/-! DEFINITION. The text at the boundary, all of it outside the core: the console's rendering of the output stream (R31, R132), the
load format (R75) and the assembly spelling (R74). No meaning and no step uses this file. -/

namespace Sys2Proof.Machine

/-- The console's text: each value as a plain decimal integer on its own line, in program order (R31, R132; the line end is a
DESIGN CHOICE, log 12). -/
def consoleText (out : List Byte) : String := String.join (out.map fun v => toString v.toNat ++ "\n")

/-- What one line of the load format contributes (R75). -/
inductive LoadLine where
  /-- The line starts with neither `0` nor `1`: it is ignored. -/
  | ignored
  /-- The line's first 8 characters are a binary literal. -/
  | byte (v : Byte)
  /-- The line starts with `0` or `1` and the spec does not say what it contributes (91 N15). -/
  | malformed
  deriving DecidableEq, Repr

/-- The value of a binary digit. -/
def digit : Char → Option Nat
  | '0' => some 0
  | '1' => some 1
  | _ => none

/-- Reads binary digits, the first the most significant, onto what has been read so far (R75). -/
def digits (acc : Nat) : List Char → Option Nat
  | [] => some acc
  | c :: cs =>
    match digit c with
    | some d => digits (2 * acc + d) cs
    | none => none

/-- One line of the load format: its first 8 characters count, what follows is a comment (R75). -/
def loadLine (line : List Char) : LoadLine :=
  match line with
  | [] => .ignored
  | c :: _ =>
    if (digit c).isNone then .ignored
    else if line.length < 8 then .malformed
    else
      match digits 0 (line.take 8) with
      | some n => .byte (BitVec.ofNat 8 n)
      | none => .malformed

/-- The image that lines of text hand to the core; a malformed line gives none (R75; DESIGN CHOICE, log 12). -/
def imageOfLines : List (List Char) → Option (List Byte)
  | [] => some []
  | line :: lines =>
    match loadLine line with
    | .ignored => imageOfLines lines
    | .byte v => (imageOfLines lines).map (v :: ·)
    | .malformed => none

/-- A register operand in assembly: the letter `r` and the decimal value of the operand byte (R74). -/
def spellReg (b : Byte) : String := "r" ++ toString b.toNat

/-- The spelling of an instruction with one register operand (R74). -/
def spell1 (name : String) (opA : Byte) : String := name ++ " " ++ spellReg opA

/-- The spelling of an instruction with two register operands (R74). -/
def spell2 (name : String) (opA opB : Byte) : String := spell1 name opA ++ "," ++ spellReg opB

/-- The assembly spelling of an instruction (R74; the spec's decision D16). -/
def spelling : Instr → String
  | .nop => "NOP"
  | .hlt => "HLT"
  | .ret => "RET"
  | .push opA => spell1 "PUSH" opA
  | .pop opA => spell1 "POP" opA
  | .prn opA => spell1 "PRN" opA
  | .call opA => spell1 "CALL" opA
  | .jmp opA => spell1 "JMP" opA
  | .jeq opA => spell1 "JEQ" opA
  | .jne opA => spell1 "JNE" opA
  | .ldi opA imm => spell1 "LDI" opA ++ "," ++ toString imm.toNat
  | .add opA opB => spell2 "ADD" opA opB
  | .mul opA opB => spell2 "MUL" opA opB
  | .cmp opA opB => spell2 "CMP" opA opB

end Sys2Proof.Machine
end

