-- ==== Sys2Proof/Tests/Slice0.lean ====
section
/-! SUPPORT. The model's own tests, each about one step or one operation; expected results are the vectors of 95_test_vectors.md (named
S, V or P there) or are worked by hand from the rule named. After them one witness for each statement that has hypotheses. -/

namespace Sys2Proof.Tests

open Sys2Proof.Machine

/-- The reset state with these bytes at an address and the program counter there. -/
def bytesAt (pc : Pc) (bytes : List Byte) : State := (State.reset.setPc pc).setMem (Memory.place [] pc.toNat bytes)

/-- The state with another byte in one cell. -/
def poke (s : State) (a : Nat) (v : Byte) : State := s.setMem (Memory.write s.mem a v)

/-- What a function of the next state gives; none where there is no next state. -/
def after {α : Type} (o : Host.Outcome State Fault Refusal) (f : State → α) : Option α :=
  match o with
  | .next t => some (f t)
  | .fault _ => none
  | .refused _ => none

/-- The halt record of a state. -/
def stopOf (s : State) : RunState × Cause × Info := (s.run, s.cause, s.info)

/-! ### Well-formedness refuses an ill-formed term at each of its checks (R66, R71) -/

theorem test_wellFormed_refuses : (.push 8 : Instr).wellFormed = false ∧ (.pop 255 : Instr).wellFormed = false ∧
    (.prn 200 : Instr).wellFormed = false ∧ (.call 8 : Instr).wellFormed = false ∧ (.jmp 8 : Instr).wellFormed = false ∧
    (.jeq 9 : Instr).wellFormed = false ∧ (.jne 9 : Instr).wellFormed = false ∧ (.ldi 8 1 : Instr).wellFormed = false := by decide

theorem test_wellFormed_refuses_first_and_second : (.add 8 0 : Instr).wellFormed = false ∧ (.add 0 8 : Instr).wellFormed = false ∧
    (.mul 16 0 : Instr).wellFormed = false ∧ (.mul 0 16 : Instr).wellFormed = false ∧ (.cmp 128 0 : Instr).wellFormed = false ∧
    (.cmp 0 128 : Instr).wellFormed = false := by decide

theorem test_wellFormed_accepts : (.push 7 : Instr).wellFormed = true ∧ (.ldi 0 255 : Instr).wellFormed = true ∧
    (.cmp 7 7 : Instr).wellFormed = true ∧ (.nop : Instr).wellFormed = true ∧ (.hlt : Instr).wellFormed = true ∧
    (.ret : Instr).wellFormed = true := by decide

/-! ### Decoding: every constructor from a word written out from R61 and R64, as the opcode table numbers its bits -/

theorem test_decode_nop : decodeTableWord 8 0b00000000 = some .nop := by decide
theorem test_decode_hlt : decodeTableWord 8 0b00000001 = some .hlt := by decide
theorem test_decode_ret : decodeTableWord 8 0b00010001 = some .ret := by decide
theorem test_decode_push : decodeTableWord 16 0b00000011_01000101 = some (.push 3) := by decide
theorem test_decode_pop : decodeTableWord 16 0b00000111_01000110 = some (.pop 7) := by decide
theorem test_decode_prn : decodeTableWord 16 0b11001000_01000111 = some (.prn 200) := by decide
theorem test_decode_call : decodeTableWord 16 0b00000001_01010000 = some (.call 1) := by decide
theorem test_decode_jmp : decodeTableWord 16 0b00000010_01010100 = some (.jmp 2) := by decide
theorem test_decode_jeq : decodeTableWord 16 0b00000100_01010101 = some (.jeq 4) := by decide
theorem test_decode_jne : decodeTableWord 16 0b00000110_01010110 = some (.jne 6) := by decide
theorem test_decode_ldi : decodeTableWord 24 0b11110000_00000101_10000010 = some (.ldi 5 0xF0) := by decide
theorem test_decode_add : decodeTableWord 24 0b00000001_00000000_10100000 = some (.add 0 1) := by decide
theorem test_decode_mul : decodeTableWord 24 0b00000101_00000010_10100010 = some (.mul 2 5) := by decide
theorem test_decode_cmp : decodeTableWord 24 0b00000100_00000110_10100111 = some (.cmp 6 4) := by decide

/-- Bits above the width given are zero, also where the table gives an operand no bits. -/
theorem test_decode_short_width : decodeTableWord 8 0xFFFFA7 = some (.cmp 0 0) := by decide

/-- V83 to V86 and 0x02: neighbours of defined opcodes are illegal (R70). -/
theorem test_decode_illegal : decodeTableWord 8 0xC0 = none ∧ decodeTableWord 8 0x02 = none ∧ decodeTableWord 8 0x40 = none ∧
    decodeTableWord 8 0x83 = none ∧ decodeTableWord 8 0xA1 = none ∧ decodeTableWord 8 0xFF = none := by decide

theorem test_encode_ldi : encode (.ldi 0 8) = [0x82, 0x00, 0x08] := by decide

/-- The lengths of R64, one of each format (R63). -/
theorem test_length : (Instr.ret).length = 1 ∧ (Instr.jne 2).length = 2 ∧ (Instr.cmp 0 1).length = 3 := by decide

/-! ### One step of each instruction -/

/-- V71. -/
theorem test_nop_at_the_last_address : after (step (bytesAt 255 [0x00])) (fun t => (t.pc, t.run)) = some (256, .running) := by decide

/-- V72, V73. -/
theorem test_hlt : after (step (bytesAt 11 [0x01])) (fun t => (t.pc, stopOf t)) = some (11, .halted, .halt, .int 0) := by decide

theorem test_halted_stays : after (step (State.reset.halt)) (fun t => decide (t = State.reset.halt)) = some true := by decide

/-- V54. -/
theorem test_ret : after (step (poke ((bytesAt 0x1E [0x11]).setSp 0xF3) 0xF3 0x08))
    (fun t => (t.pc, t.sp, Memory.read t.mem 0xF3)) = some (8, 0xF4, 0x08) := by decide

/-- V59. -/
theorem test_ret_underflow : after (step ((bytesAt 3 [0x11]).setSp 0xFF)) (fun t => (t.pc, t.sp, stopOf t)) =
    some (3, 0xFF, .halted, .outOfBounds, .int 256) := by decide

/-- V32. -/
theorem test_push_r7 : after (step (bytesAt 0 [0x45, 0x07])) (fun t => (t.sp, Memory.read t.mem 0xF3, t.pc)) =
    some (0xF3, 0xF3, 2) := by decide

/-- V42b: a push over the bytes of the push itself. -/
theorem test_push_over_itself : after (step (((bytesAt 0x20 [0x45, 0x00]).setSp 0x21).setReg 0 0x99))
    (fun t => (t.sp, Memory.read t.mem 0x20, t.pc)) = some (0x20, 0x99, 0x22) := by decide

/-- V35. -/
theorem test_pop_r7 : after (step (poke ((bytesAt 0 [0x46, 0x07]).setSp 0xFF) 0xFF 0x05)) (fun t => (t.sp, t.pc, t.run)) =
    some (0x06, 2, .running) := by decide

/-- V38: the popped byte is discarded with the rest of the step. -/
theorem test_pop_underflow : after (step (((bytesAt 0 [0x46, 0x00]).setSp 0xFF).setReg 0 0x33))
    (fun t => (t.reg 0, t.sp, stopOf t)) = some (0x33, 0xFF, .halted, .outOfBounds, .int 256) := by decide

/-- V69. -/
theorem test_prn_at_254 : after (step ((bytesAt 254 [0x47, 0x00]).setReg 0 3)) (fun t => (t.out, t.pc, t.run)) =
    some ([3], 256, .running) := by decide

/-- V69a. -/
theorem test_prn_bad_register : after (step (bytesAt 0 [0x47, 0xC8])) (fun t => (t.out, stopOf t)) =
    some ([], .halted, .invalidRegister, .int 200) := by decide

/-- V57. -/
theorem test_call_at_253 : after (step ((bytesAt 253 [0x50, 0x00]).setReg 0 5)) (fun t => (t.sp, Memory.read t.mem 0xF3, t.pc)) =
    some (0xF3, 0xFF, 5) := by decide

/-- V56. -/
theorem test_call_at_254 : after (step ((bytesAt 254 [0x50, 0x00]).setReg 0 5))
    (fun t => (t.sp, Memory.read t.mem 0xF3, t.pc, stopOf t)) =
    some (0xF4, 0, 254, .halted, .outOfBounds, .int 256) := by decide

/-- V51a. -/
theorem test_jmp_r7 : after (step (bytesAt 0 [0x54, 0x07])) (fun t => t.pc) = some 0xF4 := by decide

/-- V44, V45. -/
theorem test_jeq : after (step (((bytesAt 9 [0x55, 0x02]).setReg 2 0x40).setFl 0x01)) (fun t => t.pc) = some 0x40 ∧
    after (step (((bytesAt 9 [0x55, 0x02]).setReg 2 0x40).setFl 0x02)) (fun t => t.pc) = some 11 := by decide

/-- V52: validated though not taken. -/
theorem test_jeq_untaken_bad_register : after (step (bytesAt 9 [0x55, 0x09])) (fun t => (t.pc, stopOf t)) =
    some (9, .halted, .invalidRegister, .int 9) := by decide

/-- V48, V50. -/
theorem test_jne : after (step (((bytesAt 9 [0x56, 0x02]).setReg 2 0x40).setFl 0x01)) (fun t => t.pc) = some 11 ∧
    after (step (((bytesAt 9 [0x56, 0x02]).setReg 2 0x40).setFl 0x04)) (fun t => t.pc) = some 0x40 := by decide

/-- V63: the immediate is not checked as a register index. -/
theorem test_ldi : after (step (bytesAt 0 [0x82, 0x00, 0x09])) (fun t => (t.reg 0, t.reg 7, t.pc)) = some (9, 0xF4, 3) := by decide

/-- V65: the second operand byte would be at 256. -/
theorem test_ldi_at_254 : after (step (bytesAt 254 [0x82, 0x01])) (fun t => (t.pc, stopOf t)) =
    some (254, .halted, .outOfBounds, .int 256) := by decide

/-- V8, V9. -/
theorem test_add : after (step ((bytesAt 0 [0xA0, 0x00, 0x00]).setReg 0 0x90)) (fun t => t.reg 0) = some 0x20 ∧
    after (step ((bytesAt 0 [0xA0, 0x07, 0x01]).setReg 1 0x10)) (fun t => (t.reg 7, t.run)) = some (0x04, .running) := by decide

/-- V87: the operand fetch comes before the register check. -/
theorem test_add_fetch_before_register : after (step (bytesAt 254 [0xA0, 0x09])) stopOf =
    some (.halted, .outOfBounds, .int 256) := by decide

/-- V18. -/
theorem test_mul : after (step (((bytesAt 0 [0xA2, 0x00, 0x01]).setReg 0 0xC8).setReg 1 0xC8)) (fun t => (t.reg 0, t.reg 1)) =
    some (0x40, 0xC8) := by decide

/-- V24: unsigned, and the old flag is cleared. -/
theorem test_cmp_unsigned : after (step ((((bytesAt 0 [0xA7, 0x00, 0x01]).setFl 0x01).setReg 0 0x01).setReg 1 0xFF))
    (fun t => (t.fl, t.pc)) = some (0x04, 3) := by decide

/-- V90. -/
theorem test_cmp_bad_register : after (step ((bytesAt 0 [0xA7, 0x00, 0x08]).setFl 0x01)) (fun t => (t.fl, stopOf t)) =
    some (0x01, .halted, .invalidRegister, .int 8) := by decide

/-! ### The step as a whole, reset and the interfaces -/

/-- V80. -/
theorem test_runaway : after (step (State.reset.setPc 256)) (fun t => (t.pc, stopOf t)) =
    some (256, .halted, .runawayProgram, .int 256) := by decide

/-- V86a: the illegal opcode is found before the missing operands. -/
theorem test_illegal_at_255 : after (step (bytesAt 255 [0xA1])) (fun t => (t.pc, stopOf t)) =
    some (255, .halted, .illegalInstruction, .opcodeAt 0xA1 255) := by decide

/-- V42: the register check comes before the stack check. -/
theorem test_register_before_stack : after (step ((bytesAt 0 [0x45, 0x08]).setSp 0)) stopOf =
    some (.halted, .invalidRegister, .int 8) := by decide

/-- V58a: the stack check comes before the return-address check. -/
theorem test_stack_before_return_address : after (step ((bytesAt 254 [0x50, 0x00]).setSp 0)) stopOf =
    some (.halted, .outOfBounds, .int (-1)) := by decide

/-- P9, its second step: the store over the program. -/
theorem test_push_into_the_program : after (step (((resetWith [0x82, 7, 1, 0x45, 0, 0x45, 0, 1]).setPc 3).setSp 1))
    (fun t => (Memory.read t.mem 0, Memory.read t.mem 1, t.sp, t.pc)) = some (0, 7, 0, 5) := by decide

/-- V92, P8: reset from HALTED. -/
theorem test_restart : (State.reset.halt).restart [0x01] = bytesAt 0 [0x01] := by decide

/-- V92: an image that reaches past address 255 is cut there. -/
theorem test_image_is_cut : Memory.place [] 254 [1, 2, 3] = [(254, 1), (255, 2)] := by decide

/-- The instruction placed by `withFetchWord` is the one the next step runs, first after reset. -/
theorem test_withFetchWord : after (step (State.reset.withFetchWord 24 0x080082)) (fun t => (t.reg 0, t.pc)) = some (8, 3) := by decide

theorem test_status : (State.reset.halt).status = { run := .halted, code := some 0, info := .int 0, pc := 0 } := by decide

theorem test_observe_running : State.reset.observe = { out := [], run := .running, final := none } := by decide

/-- R171 at address 254: two bytes, and none at 256. -/
theorem test_trace : (bytesAt 254 [0x47, 0x03]).trace.next = [some 0x47, some 0x03, none] := by decide

/-- R132: decimal, unsigned, one a line. -/
theorem test_console : consoleText [17, 0, 255] = "17\n0\n255\n" := by decide

/-- R75: the example line, a comment line and a malformed one. -/
theorem test_load_lines : loadLine "10000010 # LDI".toList = .byte 0x82 ∧ loadLine "# add and print".toList = .ignored ∧
    loadLine "1000".toList = .malformed := by decide

theorem test_image_of_lines : imageOfLines ["# P1".toList, "10000010 # LDI r0,8".toList, "00000000".toList, "00001000".toList] =
    some [0x82, 0x00, 0x08] := by decide

/-- The spelling of §8's first scenario (R74). -/
theorem test_spelling : spelling (.ldi 0 8) = "LDI r0,8" ∧ spelling (.add 0 1) = "ADD r0,r1" ∧ spelling (.prn 0) = "PRN r0" ∧
    spelling .hlt = "HLT" := by decide

/-! ### Witnesses: states and operands that meet the hypotheses of each statement, at the edges of its clauses -/

theorem Witness.DecodeEncodeAgree : decode [0xA7, 0xFF, 0xFF] = .ok (.cmp 0xFF 0xFF, []) := rfl

theorem Witness.LengthFromTheTwoHighestBits : decode (0x47 :: [0x05, 0x01]) = .ok (.prn 5, [0x01]) := rfl

theorem Witness.StepRunsDecoded : (bytesAt 255 [0x00]).run = .running ∧ (bytesAt 255 [0x00]).pc.toNat ≤ 255 ∧
    decode (bytesAtPc (bytesAt 255 [0x00])) = .ok (.nop, []) := ⟨rfl, by decide, rfl⟩

/-- The last place a 3-byte instruction fits. -/
theorem Witness.StepRunsTheEncodedInstruction : (bytesAt 253 [0x82, 0x01, 0x55]).run = .running ∧
    (bytesAt 253 [0x82, 0x01, 0x55]).HoldsAtPc (.ldi 1 0x55) := by
  refine ⟨rfl, fun k v h => ?_⟩
  rcases k with _ | _ | _ | k <;> simp [encode, Instr.opcode, Instr.operandBytes] at h <;> subst h <;> decide

theorem Witness.MemReadGivesTheLastWrite : ((-1 : Int) < 0 ∨ 255 < (-1 : Int)) ∧ ((256 : Int) < 0 ∨ 255 < (256 : Int)) ∧
    ((0 : Int) ≤ 0 ∧ (0 : Int) ≤ 255) ∧ ((0 : Int) ≤ 255 ∧ (255 : Int) ≤ 255) ∧
    memWrite 255 9 State.reset = .ok (poke State.reset 255 9) ∧ (255 : Nat) < 256 := by
  refine ⟨by decide, by decide, by decide, by decide, rfl, by decide⟩

theorem Witness.MemWriteChangesOneCell : ((-1 : Int) < 0 ∨ 255 < (-1 : Int)) ∧ ((256 : Int) < 0 ∨ 255 < (256 : Int)) ∧
    ((0 : Int) ≤ 0 ∧ (0 : Int) ≤ 255) ∧ ((0 : Int) ≤ 255 ∧ (255 : Int) ≤ 255) := by decide

theorem Witness.RegisterOperandIsTheWholeByte : (7 : Byte).toNat = (7 : RegIdx).val ∧ 8 ≤ (8 : Byte).toNat := by decide

theorem Witness.EqualMemoriesAreEqualData : Memory.wf [(0, 1), (255, 2)] ∧
    ∀ a, Memory.read [(0, 1), (255, 2)] a = Memory.read [(0, 1), (255, 2)] a := ⟨by decide, fun _ => rfl⟩

theorem Witness.NopOnlyAdvances : (bytesAt 255 [0x00]).run = .running ∧ (bytesAt 255 [0x00]).pc.toNat ≤ 255 ∧
    Memory.read (bytesAt 255 [0x00]).mem (bytesAt 255 [0x00]).pc.toNat = 0x00 ∧ (bytesAt 255 [0x00]).pc.toNat = 255 := by decide

theorem Witness.HltHalts : (bytesAt 255 [0x01]).run = .running ∧ (bytesAt 255 [0x01]).pc.toNat ≤ 255 ∧
    Memory.read (bytesAt 255 [0x01]).mem (bytesAt 255 [0x01]).pc.toNat = 0x01 := by decide

/-- A byte that names a register, one that does not, and an opcode at the two addresses where its operands do not fit. -/
def MeetsTwoOperandRule (op : Byte) : Prop :=
  ((7 : Byte).toNat = (7 : RegIdx).val ∧ (0 : Byte).toNat = (0 : RegIdx).val) ∧ (7 < (8 : Byte).toNat ∨ 7 < (0 : Byte).toNat) ∧
  (7 < (0 : Byte).toNat ∨ 7 < (8 : Byte).toNat) ∧
  ∀ pc ∈ [(254 : Pc), 255], (bytesAt pc [op]).run = .running ∧
    ((bytesAt pc [op]).pc.toNat = 254 ∨ (bytesAt pc [op]).pc.toNat = 255) ∧
    Memory.read (bytesAt pc [op]).mem (bytesAt pc [op]).pc.toNat = op

theorem Witness.AddWrapsModulo256 : MeetsTwoOperandRule 0xA0 := by unfold MeetsTwoOperandRule; decide

theorem Witness.MulKeepsTheLowByte : MeetsTwoOperandRule 0xA2 := by unfold MeetsTwoOperandRule; decide

theorem Witness.CmpSetsExactlyOneFlag : MeetsTwoOperandRule 0xA7 ∧
    exec (.cmp 7 0) State.reset = .next ((State.reset.setFl 0x02).advance 3) ∧
    (∀ opA opB, Instr.nop ≠ .cmp opA opB) ∧ exec .nop State.reset = .next (State.reset.advance 1) := by
  refine ⟨by unfold MeetsTwoOperandRule; decide, rfl, fun _ _ h => Instr.noConfusion h, rfl⟩

theorem Witness.LdiSetsOneRegister : MeetsTwoOperandRule 0x82 := by unfold MeetsTwoOperandRule; decide

theorem Witness.JmpGoesToTheRegister : (7 : Byte).toNat = (7 : RegIdx).val ∧ 7 < (8 : Byte).toNat ∧
    (bytesAt 255 [0x54]).run = .running ∧ (bytesAt 255 [0x54]).pc.toNat = 255 ∧
    Memory.read (bytesAt 255 [0x54]).mem 255 = 0x54 := by decide

theorem Witness.JeqJumpsOnEqual : (7 : Byte).toNat = (7 : RegIdx).val := by decide

theorem Witness.JneJumpsOnNotEqual : (0 : Byte).toNat = (0 : RegIdx).val := by decide

theorem Witness.PrnAppendsOneValue : (7 : Byte).toNat = (7 : RegIdx).val := by decide

/-- The smallest stack pointer a push completes with, for register 7 too. -/
theorem Witness.PushStoresBelowTheStackPointer : (7 : Byte).toNat = (7 : RegIdx).val ∧ 0 < (State.reset.setSp 1).sp.toNat := by decide

theorem Witness.PopLoadsAndIncrements : ((0 : Byte).toNat = (0 : RegIdx).val ∧ (0 : RegIdx) ≠ 7 ∧
      (State.reset.setSp 0xFE).sp.toNat < 255) ∧
    ((7 : Byte).toNat = 7 ∧ (Memory.read (poke (State.reset.setSp 0xFF) 0xFF 0xFE).mem
      (poke (State.reset.setSp 0xFF) 0xFF 0xFE).sp.toNat).toNat < 255) := by decide

theorem Witness.CallPushesTheReturnAddress : (7 : Byte).toNat = (7 : RegIdx).val ∧
    0 < ((bytesAt 253 [0x50, 7]).setSp 1).sp.toNat ∧ ((bytesAt 253 [0x50, 7]).setSp 1).pc.toNat ≤ 253 := by decide

theorem Witness.RetPopsTheProgramCounter : (State.reset.setSp 0xFE).sp.toNat < 255 := by decide

theorem Witness.InvalidRegisterOperandStops : 8 ≤ (8 : Byte).toNat ∧ ((7 : Byte).toNat ≤ 7 ∧ 8 ≤ (255 : Byte).toNat) := by decide

theorem Witness.StackLimitsStop : ((7 : Byte).toNat ≤ 7 ∧ (State.reset.setSp 0).sp.toNat = 0) ∧
    ((0 : Byte).toNat ≤ 7 ∧ 0 < ((State.reset.setPc 254).setSp 1).sp.toNat ∧ ((State.reset.setPc 254).setSp 1).pc.toNat = 254) ∧
    ((6 : Byte).toNat < 7 ∧ (State.reset.setSp 0xFF).sp.toNat = 255) ∧
    ((7 : Byte).toNat = 7 ∧ (Memory.read (poke State.reset 0xF4 0xFF).mem (poke State.reset 0xF4 0xFF).sp.toNat).toNat = 255) := by
  decide

theorem Witness.RunawayProgramStops : (State.reset.setPc 256).run = .running ∧ 255 < (State.reset.setPc 256).pc.toNat := by decide

theorem Witness.IllegalInstructionStops : (bytesAt 255 [0xA1]).run = .running ∧ (bytesAt 255 [0xA1]).pc.toNat ≤ 255 ∧
    Memory.read (bytesAt 255 [0xA1]).mem (bytesAt 255 [0xA1]).pc.toNat ∉ definedOpcodes := by decide

/-- One and two operand bytes at the last addresses where they do not fit. -/
theorem Witness.MissingOperandByteStops : ∀ c ∈ [((255 : Pc), (0x45 : Byte)), (255, 0xA0), (254, 0xA0)],
    (bytesAt c.1 [c.2]).run = .running ∧ (bytesAt c.1 [c.2]).pc.toNat ≤ 255 ∧
    Memory.read (bytesAt c.1 [c.2]).mem (bytesAt c.1 [c.2]).pc.toNat ∈ definedOpcodes ∧
    255 < (bytesAt c.1 [c.2]).pc.toNat + (Memory.read (bytesAt c.1 [c.2]).mem (bytesAt c.1 [c.2]).pc.toNat).toNat / 64 := by
  intro c hc
  fin_cases hc <;> exact ⟨by decide, by decide, by decide, by decide⟩

/-- A RUNNING state of a test is in the invariant when its memory, program counter and flags are. -/
theorem inv_of_running {s : State} (hm : Memory.wf s.mem) (hp : s.pc.toNat ≤ 256) (hf : legalFlags s.fl = true)
    (hs : stopOf s = (.running, .none, .int 0)) : s.Inv := by
  refine ⟨hm, hp, hf, ?_⟩
  simp only [stopOf, Prod.mk.injEq] at hs
  simp [haltRecord, hs.1, hs.2.1, hs.2.2]

/-- Every clause of the chain, one state for each in its order. -/
def chainStates : List State :=
  [State.reset.setPc 256, bytesAt 255 [0xFF], bytesAt 255 [0x45], bytesAt 254 [0xA0, 9], (bytesAt 0 [0x45, 8]).setSp 0,
    bytesAt 0 [0xA0, 1, 10], (bytesAt 254 [0x50, 0]).setSp 0, (bytesAt 0 [0x46, 0]).setSp 0xFF,
    poke (bytesAt 0 [0x46, 7]) 0xF4 0xFF, (bytesAt 3 [0x11]).setSp 0xFF, bytesAt 254 [0x50, 0], bytesAt 11 [0x01],
    bytesAt 253 [0x82, 1, 0x55]]

theorem Witness.FirstConditionIsReported : ∀ s ∈ chainStates, s.Inv ∧ s.run = .running := by
  simp only [chainStates, List.forall_mem_cons, List.not_mem_nil, false_implies, implies_true, and_true]
  refine ⟨?_, ?_, ?_, ?_, ?_, ?_, ?_, ?_, ?_, ?_, ?_, ?_, ?_⟩ <;>
    exact ⟨inv_of_running (by decide) (by decide) (by decide) (by decide), by decide⟩

/-- What is reported in each of them, in the order of R158. -/
theorem test_first_condition : chainStates.map (fun s => after (step s) (fun t => (t.cause, t.info))) =
      [some (.runawayProgram, .int 256), some (.illegalInstruction, .opcodeAt 0xFF 255), some (.outOfBounds, .int 256),
        some (.outOfBounds, .int 256), some (.invalidRegister, .int 8), some (.invalidRegister, .int 10), some (.outOfBounds, .int (-1)),
        some (.outOfBounds, .int 256), some (.outOfBounds, .int 256), some (.outOfBounds, .int 256), some (.outOfBounds, .int 256),
        some (.halt, .int 0), some (.none, .int 0)] := by
  simp only [chainStates, List.map_cons, List.map_nil]
  repeat' refine congrArg₂ List.cons ?_ ?_
  all_goals rfl

theorem Witness.FatalConditionsArePrecise : (State.reset.setPc 256).Inv ∧ (State.reset.setPc 256).run = .running ∧
    step (State.reset.setPc 256) = .next (raise (.runawayProgram 256) (State.reset.setPc 256)) ∧
    (raise (.runawayProgram 256) (State.reset.setPc 256)).Faulted :=
  ⟨inv_of_running (by decide) (by decide) (by decide) (by decide), rfl, rfl, rfl, by decide⟩

theorem Witness.HaltedIsAbsorbing : State.reset.halt.run = .halted := rfl

theorem Witness.HltIsTheOnlyNormalStop : (bytesAt 255 [0x01]).Inv ∧ (bytesAt 255 [0x01]).run = .running ∧
    step (bytesAt 255 [0x01]) = .next (bytesAt 255 [0x01]).halt :=
  ⟨inv_of_running (by decide) (by decide) (by decide) (by decide), rfl, rfl⟩

theorem Witness.ImageStandsAtAddressZero : ((255 : Nat) < 256 ∧ 255 < (List.replicate 257 (1 : Byte)).length) ∧
    (256 ≤ (256 : Nat)) ∧ ([1, 2] : List Byte).length ≤ 2 :=
  ⟨⟨by decide, by rw [List.length_replicate]; decide⟩, by decide, by decide⟩

/-- A step that completes and one that raises, both from the invariant. -/
theorem Witness.EveryStepKeepsTheInvariant : (bytesAt 253 [0x82, 1, 0x55]).Inv ∧
    step (bytesAt 253 [0x82, 1, 0x55]) = .next (((bytesAt 253 [0x82, 1, 0x55]).setReg 1 0x55).setPc 256) ∧
    (State.reset.setPc 256).Inv ∧
    step (State.reset.setPc 256) = .next (raise (.runawayProgram 256) (State.reset.setPc 256)) :=
  ⟨inv_of_running (by decide) (by decide) (by decide) (by decide), rfl,
    inv_of_running (by decide) (by decide) (by decide) (by decide), rfl⟩

/-- One state of the invariant for each code. -/
theorem Witness.StatusCodeTellsHowTheRunEnded : State.reset.Inv ∧ State.reset.halt.Inv ∧
    (raise (.illegalInstruction 0xFF 0) State.reset).Inv ∧ (raise (.invalidRegister 8) State.reset).Inv ∧
    (raise (.outOfBounds (-1)) State.reset).Inv ∧ (raise (.runawayProgram 256) (State.reset.setPc 256)).Inv :=
  ⟨⟨by decide, by decide, by decide, rfl⟩, ⟨by decide, by decide, by decide, rfl⟩,
    ⟨by decide, by decide, by decide, by decide, rfl⟩, ⟨by decide, by decide, by decide, by decide, by decide⟩,
    ⟨by decide, by decide, by decide, .inl rfl⟩, ⟨by decide, by decide, by decide, rfl, rfl⟩⟩

/-- Each instruction of the frame completes in one of two states, and one of them raises. -/
theorem Witness.FrameOfInstructionsWithoutADestination :
    ∀ i ∈ [Instr.nop, .hlt, .prn 7, .jmp 7, .jeq 7, .jne 7, .cmp 7 0], ∃ t, exec i State.reset = .next t := by
  intro i hi
  fin_cases hi <;> exact ⟨_, rfl⟩

theorem Witness.FrameOfRegisterInstructions :
    ∀ i ∈ [Instr.ldi 7 8, .add 7 8, .mul 7 8], ∃ t, exec i State.reset = .next t := by
  intro i hi
  fin_cases hi <;> exact ⟨_, rfl⟩

/-- SpDec completes at a stack pointer of 1 and raises at 0. -/
theorem Witness.FrameOfStoringInstructions :
    (∀ i ∈ [Instr.push 7, .call 7], ∃ t, exec i (State.reset.setSp 1) = .next t) ∧
    spDec (State.reset.setSp 1) = .ok ((State.reset.setSp 1).setSp 0) ∧ spDec (State.reset.setSp 0) = .error (.outOfBounds (-1)) := by
  refine ⟨fun i hi => ?_, rfl, rfl⟩
  fin_cases hi <;> exact ⟨_, rfl⟩

theorem Witness.FrameOfPoppingInstructions : ∀ i ∈ [Instr.pop 7, .ret], ∃ t, exec i State.reset = .next t := by
  intro i hi
  fin_cases hi <;> exact ⟨_, rfl⟩

theorem Witness.PopAndRetLeaveMemory : State.reset.run = .running ∧
    ((0 : Byte).toNat = (0 : RegIdx).val ∧ (0 : RegIdx) ≠ 7 ∧
      exec (.pop 0) State.reset = .next (((State.reset.setReg 0 0).setSp 0xF5).advance 2)) ∧
    (exec .ret State.reset = .next ((State.reset.setSp 0xF5).setPc 0)) := ⟨rfl, ⟨by decide, by decide, rfl⟩, rfl⟩

theorem Witness.FlagsAreSetOnlyByCmp : step (bytesAt 253 [0xA7, 0, 0]) =
      .next (((bytesAt 253 [0xA7, 0, 0]).setFl 0x01).setPc 256) ∧
    (((bytesAt 253 [0xA7, 0, 0]).setFl 0x01).setPc 256).fl ≠ (bytesAt 253 [0xA7, 0, 0]).fl := ⟨rfl, by decide⟩

theorem Witness.OutputGrowsOnlyByPrn : step (bytesAt 254 [0x47, 7]) = .next (((bytesAt 254 [0x47, 7]).emit 0xF4).setPc 256) ∧
    (((bytesAt 254 [0x47, 7]).emit 0xF4).setPc 256).out ≠ (bytesAt 254 [0x47, 7]).out := ⟨rfl, by decide⟩

theorem Witness.MemoryChangesOnlyByPushAndCall :
    step ((bytesAt 254 [0x45, 7]).setSp 255) = .next ((poke ((bytesAt 254 [0x45, 7]).setSp 254) 254 254).setPc 256) ∧
    Memory.read ((poke ((bytesAt 254 [0x45, 7]).setSp 254) 254 254).setPc 256).mem 254 ≠
      Memory.read ((bytesAt 254 [0x45, 7]).setSp 255).mem 254 := ⟨rfl, by decide⟩

theorem Witness.TheLastCellIsNeverWritten :
    step ((bytesAt 254 [0x45, 7]).setSp 255) = .next ((poke ((bytesAt 254 [0x45, 7]).setSp 254) 254 254).setPc 256) := rfl

/-- JNE not taken at the last place it fits. -/
theorem Witness.NextProgramCounter : ((bytesAt 254 [0x56, 7]).setFl 1).run = .running ∧
    ((bytesAt 254 [0x56, 7]).setFl 1).HoldsAtPc (.jne 7) ∧
    step ((bytesAt 254 [0x56, 7]).setFl 1) = .next (((bytesAt 254 [0x56, 7]).setFl 1).setPc 256) ∧
    (((bytesAt 254 [0x56, 7]).setFl 1).setPc 256).run = .running := by
  refine ⟨rfl, fun k v h => ?_, rfl, rfl⟩
  rcases k with _ | _ | k <;> simp [encode, Instr.opcode, Instr.operandBytes] at h <;> subst h <;> decide

theorem Witness.ProgramCounterLeavesMemoryOnlyInSequence : (bytesAt 255 [0x00]).pc.toNat ≤ 255 ∧
    step (bytesAt 255 [0x00]) = .next ((bytesAt 255 [0x00]).setPc 256) ∧ 255 < ((bytesAt 255 [0x00]).setPc 256).pc.toNat :=
  ⟨by decide, rfl, by decide⟩

theorem Witness.OnlyTheEqualFlagIsRead : (0xFF : Byte).getLsbD 0 = ((bytesAt 0 [0x55, 7]).setFl 0x01).fl.getLsbD 0 ∧
    step ((bytesAt 0 [0x55, 7]).setFl 0x01) = .next (((bytesAt 0 [0x55, 7]).setFl 0x01).setPc 0xF4) := ⟨by decide, rfl⟩

theorem Witness.OutputIsNeverRead : step (bytesAt 254 [0x47, 7]) = .next (((bytesAt 254 [0x47, 7]).emit 0xF4).setPc 256) := rfl

/-- Steps that go on and that halt, and two HALTED states of the invariant that differ in their record alone. -/
theorem Witness.HaltRecordIsNeverRead :
    ((bytesAt 11 [0x01]).run = .running ∧ step (bytesAt 11 [0x01]) = .next (bytesAt 11 [0x01]).halt) ∧
    ((bytesAt 255 [0x00]).run = .running ∧ step (bytesAt 255 [0x00]) = .next ((bytesAt 255 [0x00]).setPc 256)) ∧
    (State.reset.halt.run = .halted ∧ State.reset.halt.Inv ∧ (raise (.outOfBounds 256) State.reset).Inv ∧
      raise (.outOfBounds 256) State.reset = { State.reset.halt with cause := .outOfBounds, info := .int 256 } ∧
      step State.reset.halt = .next State.reset.halt) :=
  ⟨⟨rfl, rfl⟩, ⟨rfl, rfl⟩, rfl, ⟨by decide, by decide, by decide, rfl⟩, ⟨by decide, by decide, by decide, .inr rfl⟩, rfl, rfl⟩

theorem Witness.PushThenPopRoundTrips : (6 : Byte).toNat = (6 : RegIdx).val ∧ (6 : RegIdx) ≠ 7 ∧
    0 < (State.reset.setSp 1).sp.toNat := by decide

/-- The state after a CALL of register 1 at address 253. -/
def afterCall : State := poke (((State.reset.setPc 253).setSp 0xF3).setPc 0) 0xF3 0xFF

theorem Witness.CallThenRetReturns : (1 : Byte).toNat ≤ 7 ∧ 0 < (State.reset.setPc 253).sp.toNat ∧
    (State.reset.setPc 253).pc.toNat ≤ 253 ∧ exec (.call 1) (State.reset.setPc 253) = .next afterCall ∧
    exec .ret afterCall = .next ((afterCall.setSp 0xF4).setPc 0xFF) := ⟨by decide, by decide, by decide, rfl, rfl⟩

/-- A push onto the operand byte of the very next instruction. -/
theorem Witness.StoredByteIsFetchedNext : (State.reset.setSp 4).run = .running ∧
    exec (.push 7) (State.reset.setSp 4) = .next ((poke (State.reset.setSp 3) 3 3).setPc 2) ∧
    ((poke (State.reset.setSp 3) 3 3).setPc 2).run = .running ∧
    (1 < 3 ∧ ((poke (State.reset.setSp 3) 3 3).setPc 2).pc.toNat + 1 = (State.reset.setSp 4).sp.toNat - 1) :=
  ⟨rfl, rfl, rfl, by decide⟩

end Sys2Proof.Tests
end

section
/-! PROOFS. What `exec` can do, said once for each instruction: the whole next state where it completes, and the fatal condition it takes
where it raises. -/

namespace Sys2Proof.Machine

/-! ### Computations that may raise -/

@[simp] theorem ok_bind {α β : Type} (x : α) (k : α → Except Fatal β) : (Except.ok x >>= k) = k x := rfl

@[simp] theorem error_bind {α β : Type} (f : Fatal) (k : α → Except Fatal β) : (Except.error f >>= k) = .error f := rfl

@[simp] theorem pure_eq_ok {α : Type} (x : α) : (pure x : Except Fatal α) = .ok x := rfl

/-! ### A step's end after its operands are validated -/

/-- A meaning that begins by validating one register operand goes on with the register named, or takes InvalidRegister (R86). -/
theorem commit_regidx_cases (opA : Byte) (s : State) (k : RegIdx → Except Fatal State) :
    (∃ a : RegIdx, opA.toNat = a.val ∧ commit s (regidx opA >>= k) = commit s (k a)) ∨
    (8 ≤ opA.toNat ∧ commit s (regidx opA >>= k) = .next (raise (.invalidRegister opA) s)) := by
  rcases regidx_cases opA with ⟨a, ha, hA⟩ | ⟨h8, hA⟩
  · exact .inl ⟨a, ha, by rw [hA, ok_bind]⟩
  · exact .inr ⟨h8, by rw [hA, error_bind, commit_error]⟩

/-- A meaning that begins by validating two register operands goes on with both registers, or takes InvalidRegister for the first operand
that names none (R86). -/
theorem commit_regidx2_cases (opA opB : Byte) (s : State) (k : RegIdx × RegIdx → Except Fatal State) :
    (∃ a b : RegIdx, opA.toNat = a.val ∧ opB.toNat = b.val ∧ commit s (regidx2 opA opB >>= k) = commit s (k (a, b))) ∨
    (8 ≤ opA.toNat ∧ commit s (regidx2 opA opB >>= k) = .next (raise (.invalidRegister opA) s)) ∨
    (opA.toNat < 8 ∧ 8 ≤ opB.toNat ∧ commit s (regidx2 opA opB >>= k) = .next (raise (.invalidRegister opB) s)) := by
  rcases regidx2_cases opA opB with ⟨a, b, ha, hb, hAB⟩ | ⟨h8, hAB⟩ | ⟨hA, h8, hAB⟩
  · exact .inl ⟨a, b, ha, hb, by rw [hAB, ok_bind]⟩
  · exact .inr (.inl ⟨h8, by rw [hAB, error_bind, commit_error]⟩)
  · exact .inr (.inr ⟨hA, h8, by rw [hAB, error_bind, commit_error]⟩)

/-! ### Instructions without an operand -/

theorem exec_nop (s : State) : exec .nop s = .next (s.advance 1) := rfl

theorem exec_hlt (s : State) : exec .hlt s = .next s.halt := rfl

/-! ### Instructions with one register operand -/

theorem exec_prn_cases (opA : Byte) (s : State) :
    (∃ a : RegIdx, opA.toNat = a.val ∧ exec (.prn opA) s = .next ((s.emit (s.reg a)).advance 2)) ∨
    (8 ≤ opA.toNat ∧ exec (.prn opA) s = .next (raise (.invalidRegister opA) s)) :=
  commit_regidx_cases opA s _

theorem exec_jmp_cases (opA : Byte) (s : State) :
    (∃ a : RegIdx, opA.toNat = a.val ∧ exec (.jmp opA) s = .next (s.jump (s.reg a))) ∨
    (8 ≤ opA.toNat ∧ exec (.jmp opA) s = .next (raise (.invalidRegister opA) s)) :=
  commit_regidx_cases opA s _

theorem exec_jeq_cases (opA : Byte) (s : State) :
    (∃ a : RegIdx, opA.toNat = a.val ∧
      exec (.jeq opA) s = .next (if s.flagE then s.jump (s.reg a) else s.advance 2)) ∨
    (8 ≤ opA.toNat ∧ exec (.jeq opA) s = .next (raise (.invalidRegister opA) s)) :=
  commit_regidx_cases opA s _

theorem exec_jne_cases (opA : Byte) (s : State) :
    (∃ a : RegIdx, opA.toNat = a.val ∧
      exec (.jne opA) s = .next (if s.flagE then s.advance 2 else s.jump (s.reg a))) ∨
    (8 ≤ opA.toNat ∧ exec (.jne opA) s = .next (raise (.invalidRegister opA) s)) :=
  commit_regidx_cases opA s _

theorem exec_ldi_cases (opA imm : Byte) (s : State) :
    (∃ a : RegIdx, opA.toNat = a.val ∧ exec (.ldi opA imm) s = .next ((s.setReg a imm).advance 3)) ∨
    (8 ≤ opA.toNat ∧ exec (.ldi opA imm) s = .next (raise (.invalidRegister opA) s)) :=
  commit_regidx_cases opA s _

/-! ### Instructions with two register operands -/

theorem exec_add_cases (opA opB : Byte) (s : State) :
    (∃ a b : RegIdx, opA.toNat = a.val ∧ opB.toNat = b.val ∧
      exec (.add opA opB) s = .next ((s.setReg a (aluAdd (s.reg a) (s.reg b))).advance 3)) ∨
    (8 ≤ opA.toNat ∧ exec (.add opA opB) s = .next (raise (.invalidRegister opA) s)) ∨
    (opA.toNat < 8 ∧ 8 ≤ opB.toNat ∧ exec (.add opA opB) s = .next (raise (.invalidRegister opB) s)) :=
  commit_regidx2_cases opA opB s _

theorem exec_mul_cases (opA opB : Byte) (s : State) :
    (∃ a b : RegIdx, opA.toNat = a.val ∧ opB.toNat = b.val ∧
      exec (.mul opA opB) s = .next ((s.setReg a (aluMul (s.reg a) (s.reg b))).advance 3)) ∨
    (8 ≤ opA.toNat ∧ exec (.mul opA opB) s = .next (raise (.invalidRegister opA) s)) ∨
    (opA.toNat < 8 ∧ 8 ≤ opB.toNat ∧ exec (.mul opA opB) s = .next (raise (.invalidRegister opB) s)) :=
  commit_regidx2_cases opA opB s _

theorem exec_cmp_cases (opA opB : Byte) (s : State) :
    (∃ a b : RegIdx, opA.toNat = a.val ∧ opB.toNat = b.val ∧
      exec (.cmp opA opB) s = .next ((s.setFl (compareFlags (s.reg a) (s.reg b))).advance 3)) ∨
    (8 ≤ opA.toNat ∧ exec (.cmp opA opB) s = .next (raise (.invalidRegister opA) s)) ∨
    (opA.toNat < 8 ∧ 8 ≤ opB.toNat ∧ exec (.cmp opA opB) s = .next (raise (.invalidRegister opB) s)) :=
  commit_regidx2_cases opA opB s _

/-! ### Instructions that use the stack -/

theorem exec_ret_cases (s : State) :
    (s.sp.toNat < 255 ∧ exec .ret s = .next ((s.setSp (s.sp + 1)).jump (Memory.read s.mem s.sp.toNat))) ∨
    (s.sp.toNat = 255 ∧ exec .ret s = .next (raise (.outOfBounds 256) s)) := by
  rcases spInc_cases s with ⟨hsp, hi⟩ | ⟨hsp, hi⟩
  · exact .inr ⟨hsp, by simp [exec, execRet, hi]⟩
  · exact .inl ⟨hsp, by simp [exec, execRet, hi]⟩

theorem exec_push_cases (opA : Byte) (s : State) :
    (∃ a : RegIdx, opA.toNat = a.val ∧ 0 < s.sp.toNat ∧
      exec (.push opA) s = .next
        (((s.setSp (s.sp - 1)).setMem (Memory.write s.mem (s.sp - 1).toNat ((s.setSp (s.sp - 1)).reg a))).advance 2)) ∨
    (8 ≤ opA.toNat ∧ exec (.push opA) s = .next (raise (.invalidRegister opA) s)) ∨
    (opA.toNat < 8 ∧ s.sp.toNat = 0 ∧ exec (.push opA) s = .next (raise (.outOfBounds (-1)) s)) := by
  rcases regidx_cases opA with ⟨a, ha, hA⟩ | ⟨h8, hA⟩
  · rcases spDec_cases s with ⟨hsp, hd⟩ | ⟨hsp, hd⟩
    · exact .inr (.inr ⟨ha ▸ a.isLt, hsp, by simp [exec, execPush, hA, hd]⟩)
    · exact .inl ⟨a, ha, hsp, by simp [exec, execPush, hA, hd]⟩
  · exact .inr (.inl ⟨h8, by simp [exec, execPush, hA]⟩)

/-- POP reads the stack pointer's byte into the register first and increments the stack pointer as it then stands (R113; for register 7
the spec's decision D8). -/
theorem exec_pop_cases (opA : Byte) (s : State) :
    (∃ a : RegIdx, opA.toNat = a.val ∧ (s.setReg a (Memory.read s.mem s.sp.toNat)).sp.toNat < 255 ∧
      exec (.pop opA) s = .next
        (((s.setReg a (Memory.read s.mem s.sp.toNat)).setSp ((s.setReg a (Memory.read s.mem s.sp.toNat)).sp + 1)).advance 2)) ∨
    (8 ≤ opA.toNat ∧ exec (.pop opA) s = .next (raise (.invalidRegister opA) s)) ∨
    (∃ a : RegIdx, opA.toNat = a.val ∧ (s.setReg a (Memory.read s.mem s.sp.toNat)).sp.toNat = 255 ∧
      exec (.pop opA) s = .next (raise (.outOfBounds 256) s)) := by
  rcases regidx_cases opA with ⟨a, ha, hA⟩ | ⟨h8, hA⟩
  · rcases spInc_cases (s.setReg a (Memory.read s.mem s.sp.toNat)) with ⟨hsp, hi⟩ | ⟨hsp, hi⟩
    · exact .inr (.inr ⟨a, ha, hsp, by simp [exec, execPop, hA, hi]⟩)
    · exact .inl ⟨a, ha, hsp, by simp [exec, execPop, hA, hi]⟩
  · exact .inr (.inl ⟨h8, by simp [exec, execPop, hA]⟩)

/-- The return address is that of the CALL, whatever the push has done to the stack pointer. -/
@[simp] theorem returnAddress_setSp (s : State) (v : Byte) : returnAddress (s.setSp v) = returnAddress s := rfl

/-- CALL checks the stack pointer before the return address (R124). -/
theorem exec_call_cases (opA : Byte) (s : State) :
    (∃ a : RegIdx, opA.toNat = a.val ∧ 0 < s.sp.toNat ∧ s.pc.toNat ≤ 253 ∧
      exec (.call opA) s = .next
        (((s.setSp (s.sp - 1)).setMem (Memory.write s.mem (s.sp - 1).toNat (BitVec.ofNat 8 (s.pc.toNat + 2)))).jump
          ((s.setSp (s.sp - 1)).reg a))) ∨
    (8 ≤ opA.toNat ∧ exec (.call opA) s = .next (raise (.invalidRegister opA) s)) ∨
    (opA.toNat < 8 ∧ s.sp.toNat = 0 ∧ exec (.call opA) s = .next (raise (.outOfBounds (-1)) s)) ∨
    (opA.toNat < 8 ∧ 0 < s.sp.toNat ∧ 254 ≤ s.pc.toNat ∧ exec (.call opA) s = .next (raise (.outOfBounds 256) s)) := by
  rcases regidx_cases opA with ⟨a, ha, hA⟩ | ⟨h8, hA⟩
  · rcases spDec_cases s with ⟨hsp, hd⟩ | ⟨hsp, hd⟩
    · exact .inr (.inr (.inl ⟨ha ▸ a.isLt, hsp, by simp [exec, execCall, hA, hd]⟩))
    · rcases returnAddress_cases s with ⟨hpc, hr⟩ | ⟨hpc, hr⟩
      · exact .inl ⟨a, ha, hsp, hpc, by simp [exec, execCall, hA, hd, hr]⟩
      · exact .inr (.inr (.inr ⟨ha ▸ a.isLt, hsp, hpc, by simp [exec, execCall, hA, hd, hr]⟩))
  · exact .inr (.inl ⟨h8, by simp [exec, execCall, hA]⟩)

end Sys2Proof.Machine
end

section
/-! PROOFS. Decoding read backwards: what the bytes are when they decode, and when they are rejected; then what that says of a fetch. -/

namespace Sys2Proof

/-- What an entry of the dispatch table says of the instructions it builds: their opcode and their operand bytes. -/
def Format.Encodes (op : Byte) : Format → Prop
  | .f0 i => encode i = [op]
  | .f1 mk => ∀ a, encode (mk a) = [op, a]
  | .f2 mk => ∀ a b, encode (mk a b) = [op, a, b]

/-- The dispatch table and the encoder agree on every defined opcode (R64). -/
theorem dispatch_encodes {op : Byte} {fmt : Format} (h : dispatch op = some fmt) : fmt.Encodes op := by
  unfold dispatch at h
  split at h <;> cases h <;> simp [Format.Encodes, encode, Instr.opcode, Instr.operandBytes]

/-- An opcode without an entry is not one of the defined values (R64, R84). -/
theorem not_mem_definedOpcodes_of_dispatch_none {op : Byte} (h : dispatch op = none) : op ∉ Machine.definedOpcodes := by
  intro hmem
  simp only [Machine.definedOpcodes, List.mem_cons, List.not_mem_nil, or_false] at hmem
  rcases hmem with rfl | rfl | rfl | rfl | rfl | rfl | rfl | rfl | rfl | rfl | rfl | rfl | rfl | rfl <;> cases h

/-- Everything the decoder can answer: an instruction whose encoding stands at the front of the bytes, an opcode without an entry, or the
offset of the first byte missing, which is how many bytes there are (R60, R84, R85). -/
theorem decode_cases (bytes : List Byte) :
    (∃ i rest, decode bytes = .ok (i, rest) ∧ bytes = encode i ++ rest) ∨
    (∃ op rest, decode bytes = .error (.illegalOpcode op) ∧ bytes = op :: rest ∧ dispatch op = none) ∨
    (decode bytes = .error (.endOfBytes bytes.length) ∧ bytes.length < Config.maxLength) := by
  cases bytes with
  | nil => exact .inr (.inr ⟨rfl, by decide⟩)
  | cons op rest =>
    cases hd : dispatch op with
    | none => exact .inr (.inl ⟨op, rest, by simp [decode, hd], rfl, hd⟩)
    | some fmt =>
      have henc := dispatch_encodes hd
      cases fmt with
      | f0 i => exact .inl ⟨i, rest, by simp [decode, hd], by rw [henc]; rfl⟩
      | f1 mk =>
        match rest with
        | [] => exact .inr (.inr ⟨by simp [decode, hd], by simp [Config.maxLength]⟩)
        | a :: rest => exact .inl ⟨mk a, rest, by simp [decode, hd], by rw [henc a]; rfl⟩
      | f2 mk =>
        match rest with
        | [] => exact .inr (.inr ⟨by simp [decode, hd], by simp [Config.maxLength]⟩)
        | [_] => exact .inr (.inr ⟨by simp [decode, hd], by simp [Config.maxLength]⟩)
        | a :: b :: rest => exact .inl ⟨mk a b, rest, by simp [decode, hd], by rw [henc a b]; rfl⟩

namespace Machine

/-- A fetch inside memory sees three bytes, or as many as there are up to address 255. -/
theorem length_bytesAtPc {s : State} (h : s.pc.toNat ≤ 255) : (bytesAtPc s).length = min 3 (256 - s.pc.toNat) := by
  rcases (by omega : s.pc.toNat ≤ 253 ∨ s.pc.toNat = 254 ∨ s.pc.toNat = 255) with hpc | hpc | hpc
  · rw [bytesAtPc_three hpc, List.length_cons, List.length_cons, List.length_cons, List.length_nil]
    omega
  · rw [bytesAtPc_two hpc, hpc]
    rfl
  · rw [bytesAtPc_one hpc, hpc]
    rfl

/-- A fetched instruction lies inside memory with its last byte (R85). -/
theorem fetch_ok_fits {s : State} {i : Instr} (h : fetch s = .ok i) : s.pc.toNat + (encode i).length ≤ 256 := by
  rcases fetch_cases s with ⟨-, hf⟩ | ⟨hpc, j, rest, hd, hf⟩ | ⟨-, e, -, hf⟩
  · cases hf ▸ h
  · cases hf ▸ h
    rcases decode_cases (bytesAtPc s) with ⟨k, r, hk, hbytes⟩ | ⟨_, _, hk, -⟩ | ⟨hk, -⟩
    · cases hd.symm.trans hk
      have hlen := congrArg List.length hbytes
      rw [length_bytesAtPc hpc, List.length_append] at hlen
      omega
    · cases hd.symm.trans hk
    · cases hd.symm.trans hk
  · cases hf ▸ h

/-- The three fatal conditions of a fetch, with their information: the program counter outside memory, an opcode that is not defined, and
an operand byte at address 256 (R82, R84, R85). -/
theorem fetch_error_cases {s : State} {f : Fatal} (h : fetch s = .error f) :
    (255 < s.pc.toNat ∧ f = .runawayProgram s.pc) ∨
    (∃ op, op ∉ definedOpcodes ∧ f = .illegalInstruction op s.pc) ∨
    f = .outOfBounds 256 := by
  rcases fetch_cases s with ⟨hpc, hf⟩ | ⟨-, _, _, -, hf⟩ | ⟨hpc, e, hd, hf⟩
  · cases hf ▸ h
    exact .inl ⟨hpc, rfl⟩
  · cases hf ▸ h
  · cases hf ▸ h
    rcases decode_cases (bytesAtPc s) with ⟨_, _, hk, -⟩ | ⟨op, _, hk, -, hnone⟩ | ⟨hk, hlt⟩
    · cases hd.symm.trans hk
    · cases hd.symm.trans hk
      exact .inr (.inl ⟨op, not_mem_definedOpcodes_of_dispatch_none hnone, rfl⟩)
    · cases hd.symm.trans hk
      have hlen := length_bytesAtPc hpc
      simp only [Config.maxLength] at hlt
      refine .inr (.inr (congrArg Fatal.outOfBounds ?_))
      omega

end Machine
end Sys2Proof
end

section
/-! PROOFS. The invariant of R37, operation by operation, then for `exec`, the step and the run. -/

namespace Sys2Proof.Machine

/-! ### The halt record -/

theorem haltRecord_running {s : State} (hrun : s.run = .running) : haltRecord s ↔ s.cause = .none ∧ s.info = .int 0 := by
  unfold haltRecord
  rw [hrun]
  cases s.cause <;> cases s.info <;> simp

/-- A fatal condition whose information is one that a step of this state can record (R29, R30, R151). -/
def Fatal.Fits (s : State) : Fatal → Prop
  | .illegalInstruction op pc => op ∉ definedOpcodes ∧ pc = s.pc
  | .invalidRegister b => 8 ≤ b.toNat
  | .outOfBounds addr => addr = -1 ∨ addr = 256
  | .runawayProgram pc => pc = s.pc ∧ s.pc.toNat = 256

theorem haltRecord_raise {s : State} {f : Fatal} (hf : f.Fits s) : haltRecord (raise f s) := by
  cases f with
  | illegalInstruction op pc => exact hf
  | invalidRegister b =>
    have hb : 8 ≤ b.toNat := hf
    have := b.isLt
    exact ⟨by omega, by omega⟩
  | outOfBounds addr => exact hf
  | runawayProgram pc =>
    obtain ⟨rfl, hpc⟩ := hf
    exact ⟨congrArg Nat.cast hpc, hpc⟩

/-! ### The invariant under the operations on the state -/

namespace State.Inv

variable {s : State}

theorem setReg (h : s.Inv) (i : RegIdx) (v : Byte) : (s.setReg i v).Inv := ⟨h.mem, h.pc, h.fl, h.record⟩

theorem setSp (h : s.Inv) (v : Byte) : (s.setSp v).Inv := h.setReg _ v

theorem emit (h : s.Inv) (v : Byte) : (s.emit v).Inv := ⟨h.mem, h.pc, h.fl, h.record⟩

theorem setFl (h : s.Inv) {v : Byte} (hv : legalFlags v = true) : (s.setFl v).Inv := ⟨h.mem, h.pc, hv, h.record⟩

theorem setMem (h : s.Inv) {m : Memory} (hm : Memory.wf m) : (s.setMem m).Inv := ⟨hm, h.pc, h.fl, h.record⟩

/-- A byte stored at an address that is itself a byte, as the stack pointer is. -/
theorem store (h : s.Inv) (a v : Byte) : (s.setMem (Memory.write s.mem a.toNat v)).Inv :=
  h.setMem (Memory.wf_write h.mem v a.isLt)

theorem setPc (h : s.Inv) (hrun : s.run = .running) {t : Pc} (ht : t.toNat ≤ 256) : (s.setPc t).Inv :=
  ⟨h.mem, ht, h.fl, (haltRecord_running (s := s.setPc t) hrun).mpr ((haltRecord_running hrun).mp h.record)⟩

theorem jump (h : s.Inv) (hrun : s.run = .running) (v : Byte) : (s.jump v).Inv := by
  refine h.setPc hrun ?_
  rw [zext9_toNat]
  exact v.isLt.le

theorem advance (h : s.Inv) (hrun : s.run = .running) {n : Nat} (hn : s.pc.toNat + n ≤ 256) : (s.advance n).Inv := by
  refine h.setPc hrun ?_
  rw [BitVec.toNat_add, BitVec.toNat_ofNat]
  omega

theorem halt (h : s.Inv) : s.halt.Inv := ⟨h.mem, h.pc, h.fl, rfl⟩

theorem raise (h : s.Inv) {f : Fatal} (hf : f.Fits s) : (raise f s).Inv := ⟨h.mem, h.pc, h.fl, haltRecord_raise hf⟩

end State.Inv

theorem legalFlags_compareFlags (p q : Byte) : legalFlags (compareFlags p q) = true := by
  rcases compareFlags_cases p q with ⟨-, h⟩ | ⟨-, h⟩ | ⟨-, h⟩ <;> rw [h] <;> decide

/-! ### The invariant under `exec` -/

/-- An instruction that lies inside memory, run in a RUNNING state of the invariant, answers a next state of the invariant. -/
theorem exec_inv {s : State} (h : s.Inv) (hrun : s.run = .running) (i : Instr) (hfits : s.pc.toNat + (encode i).length ≤ 256) :
    ∃ t, exec i s = .next t ∧ t.Inv := by
  cases i with
  | nop => exact ⟨_, exec_nop s, h.advance hrun hfits⟩
  | hlt => exact ⟨_, exec_hlt s, h.halt⟩
  | ret =>
    rcases exec_ret_cases s with ⟨-, he⟩ | ⟨-, he⟩
    · exact ⟨_, he, (h.setSp _).jump hrun _⟩
    · exact ⟨_, he, h.raise (.inr rfl)⟩
  | push opA =>
    rcases exec_push_cases opA s with ⟨_, -, -, he⟩ | ⟨h8, he⟩ | ⟨-, -, he⟩
    · exact ⟨_, he, ((h.setSp _).store _ _).advance hrun hfits⟩
    · exact ⟨_, he, h.raise h8⟩
    · exact ⟨_, he, h.raise (.inl rfl)⟩
  | pop opA =>
    rcases exec_pop_cases opA s with ⟨_, -, -, he⟩ | ⟨h8, he⟩ | ⟨_, -, -, he⟩
    · exact ⟨_, he, ((h.setReg _ _).setSp _).advance hrun hfits⟩
    · exact ⟨_, he, h.raise h8⟩
    · exact ⟨_, he, h.raise (.inr rfl)⟩
  | prn opA =>
    rcases exec_prn_cases opA s with ⟨_, -, he⟩ | ⟨h8, he⟩
    · exact ⟨_, he, (h.emit _).advance hrun hfits⟩
    · exact ⟨_, he, h.raise h8⟩
  | call opA =>
    rcases exec_call_cases opA s with ⟨_, -, -, -, he⟩ | ⟨h8, he⟩ | ⟨-, -, he⟩ | ⟨-, -, -, he⟩
    · exact ⟨_, he, ((h.setSp _).store _ _).jump hrun _⟩
    · exact ⟨_, he, h.raise h8⟩
    · exact ⟨_, he, h.raise (.inl rfl)⟩
    · exact ⟨_, he, h.raise (.inr rfl)⟩
  | jmp opA =>
    rcases exec_jmp_cases opA s with ⟨_, -, he⟩ | ⟨h8, he⟩
    · exact ⟨_, he, h.jump hrun _⟩
    · exact ⟨_, he, h.raise h8⟩
  | jeq opA =>
    rcases exec_jeq_cases opA s with ⟨_, -, he⟩ | ⟨h8, he⟩
    · refine ⟨_, he, ?_⟩
      split
      · exact h.jump hrun _
      · exact h.advance hrun hfits
    · exact ⟨_, he, h.raise h8⟩
  | jne opA =>
    rcases exec_jne_cases opA s with ⟨_, -, he⟩ | ⟨h8, he⟩
    · refine ⟨_, he, ?_⟩
      split
      · exact h.advance hrun hfits
      · exact h.jump hrun _
    · exact ⟨_, he, h.raise h8⟩
  | ldi opA imm =>
    rcases exec_ldi_cases opA imm s with ⟨_, -, he⟩ | ⟨h8, he⟩
    · exact ⟨_, he, (h.setReg _ _).advance hrun hfits⟩
    · exact ⟨_, he, h.raise h8⟩
  | add opA opB =>
    rcases exec_add_cases opA opB s with ⟨_, _, -, -, he⟩ | ⟨h8, he⟩ | ⟨-, h8, he⟩
    · exact ⟨_, he, (h.setReg _ _).advance hrun hfits⟩
    · exact ⟨_, he, h.raise h8⟩
    · exact ⟨_, he, h.raise h8⟩
  | mul opA opB =>
    rcases exec_mul_cases opA opB s with ⟨_, _, -, -, he⟩ | ⟨h8, he⟩ | ⟨-, h8, he⟩
    · exact ⟨_, he, (h.setReg _ _).advance hrun hfits⟩
    · exact ⟨_, he, h.raise h8⟩
    · exact ⟨_, he, h.raise h8⟩
  | cmp opA opB =>
    rcases exec_cmp_cases opA opB s with ⟨_, _, -, -, he⟩ | ⟨h8, he⟩ | ⟨-, h8, he⟩
    · exact ⟨_, he, (h.setFl (legalFlags_compareFlags _ _)).advance hrun hfits⟩
    · exact ⟨_, he, h.raise h8⟩
    · exact ⟨_, he, h.raise h8⟩

/-! ### The step answers, and keeps the invariant -/

/-- Every meaning ends in `commit`: it completes or takes a fatal condition (R80 part 7, R156). -/
theorem exec_eq_commit (i : Instr) (s : State) : ∃ r, exec i s = commit s r := by
  cases i with
  | nop => exact ⟨.ok (s.advance 1), rfl⟩
  | hlt => exact ⟨.ok s.halt, rfl⟩
  | _ => exact ⟨_, rfl⟩

/-- A completed effect and a fatal condition alike end in a next state (log 1). -/
theorem commit_answers (s : State) (r : Except Fatal State) : ∃ t, commit s r = .next t := by
  cases r with
  | ok t => exact ⟨t, commit_ok s t⟩
  | error f => exact ⟨raise f s, commit_error s f⟩

theorem step_of_halted {s : State} (hrun : s.run = .halted) : step s = .next s := by
  rw [step, hrun]

theorem step_of_fetch_ok {s : State} {i : Instr} (hrun : s.run = .running) (hf : fetch s = .ok i) : step s = exec i s := by
  simp only [step, hrun, hf]

theorem step_of_fetch_error {s : State} {f : Fatal} (hrun : s.run = .running) (hf : fetch s = .error f) :
    step s = .next (raise f s) := by
  simp only [step, hrun, hf, commit_error]

theorem step_answers (s : State) : ∃ t, step s = .next t := by
  cases hrun : s.run with
  | halted => exact ⟨s, step_of_halted hrun⟩
  | running =>
    cases hf : fetch s with
    | ok i =>
      obtain ⟨r, hr⟩ := exec_eq_commit i s
      rw [step_of_fetch_ok hrun hf, hr]
      exact commit_answers s r
    | error f => exact ⟨raise f s, step_of_fetch_error hrun hf⟩

/-- A fatal condition of a fetch in the invariant has information that fits: there the program counter is at most 256 (R37, R82). -/
theorem fetch_error_fits {s : State} {f : Fatal} (h : s.Inv) (hf : fetch s = .error f) : f.Fits s := by
  rcases fetch_error_cases hf with ⟨hpc, rfl⟩ | ⟨op, hop, rfl⟩ | rfl
  · exact ⟨rfl, Nat.le_antisymm h.pc hpc⟩
  · exact ⟨hop, rfl⟩
  · exact .inr rfl

/-- Every step keeps the invariant (R37). -/
theorem step_inv {s t : State} (h : s.Inv) (hs : step s = .next t) : t.Inv := by
  rcases step_cases hs with ⟨-, rfl⟩ | ⟨hrun, i, hf, he⟩ | ⟨-, f, hf, rfl⟩
  · exact h
  · obtain ⟨u, hu, hinv⟩ := exec_inv h hrun i (fetch_ok_fits hf)
    cases he.symm.trans hu
    exact hinv
  · exact h.raise (fetch_error_fits h hf)

/-! ### Reset and runs -/

theorem reset_inv : State.reset.Inv := ⟨Memory.wf_reset, by decide, by decide, rfl⟩

theorem resetWith_inv (image : List Byte) : (resetWith image).Inv := reset_inv.setMem (Memory.wf_loadImage image)

theorem run_succ {M : Host.Core} {s t : M.State} (hs : M.step s = .next t) (n : Nat) : M.run (n + 1) s = M.run n t := by
  rw [Host.Core.run, hs]

/-- From a state of the invariant, any number of steps ends in a next state of the invariant. -/
theorem run_inv (n : Nat) {s : State} (h : s.Inv) : ∃ t, Host.Core.run core n s = .next t ∧ t.Inv := by
  induction n generalizing s with
  | zero => exact ⟨s, rfl, h⟩
  | succ n ih =>
    obtain ⟨u, hu⟩ := step_answers s
    rw [run_succ (M := core) hu]
    exact ih (step_inv h hu)

/-! ### The obligations -/

/-- Settles O35: a HALTED machine stays, a fetch that raises is taken as a next state, and every meaning ends in `commit`. -/
theorem everyStepAnswers : Obligations.EveryStepAnswers := step_answers

/-- Settles O41: the invariant holds after the reset, every step answers and keeps it, and so does a run of any length. -/
theorem everyRunKeepsTheInvariant : Obligations.EveryRunKeepsTheInvariant :=
  fun image n => run_inv n (resetWith_inv image)

end Sys2Proof.Machine
end

section
/-! PROOFS. What reset leaves, the step lemma of the invariant, and what the status interface tells in the invariant. -/

namespace Sys2Proof.Machine

/-- Settles O40: `step_inv`, the invariant case by case of the step and of `exec`. -/
theorem everyStepKeepsTheInvariant : Obligations.EveryStepKeepsTheInvariant := fun _ _ => step_inv

/-- Settles O39: the reset state is in the invariant, and an image changes its memory to another canonical one. -/
theorem invariantAtReset : Obligations.InvariantAtReset := ⟨resetWith_nil.symm, resetWith_inv⟩

theorem reg_reset : ∀ a : RegIdx, State.reset.reg a = if a = 7 then 0xF4 else 0x00 := by decide

/-- Settles O37: a reset leaves every component but memory as in `State.reset`. -/
theorem resetSetsEveryRegister : Obligations.ResetSetsEveryRegister :=
  fun _ _ => ⟨reg_reset, rfl, rfl, rfl, rfl, rfl, rfl⟩

/-! ### Run state, halt cause and code -/

/-- In the invariant exactly a RUNNING machine has no halt cause (R29). -/
theorem State.Inv.running_iff {s : State} (h : s.Inv) : s.run = .running ↔ s.cause = .none := by
  have hrec := h.record
  unfold haltRecord at hrec
  split at hrec <;> simp_all

theorem State.Inv.halted_iff {s : State} (h : s.Inv) : s.run = .halted ↔ s.cause ≠ .none := by
  refine Iff.trans ?_ h.running_iff.not
  cases s.run <;> decide

/-- The cause of a code, the inverse of `Cause.code` (R29; D9). -/
def Cause.ofCode : Option Nat → Cause
  | .none => .none
  | some 0 => .halt
  | some 1 => .illegalInstruction
  | some 2 => .invalidRegister
  | some 3 => .outOfBounds
  | some _ => .runawayProgram

theorem Cause.ofCode_code (c : Cause) : Cause.ofCode c.code = c := by
  cases c <;> rfl

theorem Cause.code_injective : Function.Injective Cause.code := Function.LeftInverse.injective Cause.ofCode_code

theorem Cause.code_le {c : Cause} {n : Nat} (h : c.code = some n) : n ≤ 4 := by
  cases c <;> cases h <;> decide

/-- A code of 1 or more is that of a fatal condition (R151). -/
theorem Cause.code_pos_iff (c : Cause) : (∃ n, 1 ≤ n ∧ c.code = some n) ↔ c ≠ .none ∧ c ≠ .halt := by
  cases c <;> simp [Cause.code]

/-- Settles O42: in the invariant the run state follows from the halt cause, and no two causes have one code. -/
theorem statusCodeTellsHowTheRunEnded : Obligations.StatusCodeTellsHowTheRunEnded := by
  intro s h
  have hcode (c : Cause) : s.status.code = c.code ↔ s.cause = c := Cause.code_injective.eq_iff
  refine ⟨(hcode .none).trans h.running_iff.symm, (hcode .halt).trans ?_, (Cause.code_pos_iff s.cause).trans ?_,
    hcode .illegalInstruction, hcode .invalidRegister, hcode .outOfBounds, hcode .runawayProgram,
    fun _ => Cause.code_le, rfl, rfl, rfl⟩
  · exact ⟨fun hc => ⟨h.halted_iff.mpr (by simp [hc]), hc⟩, And.right⟩
  · exact and_congr_left' h.halted_iff.symm

end Sys2Proof.Machine
end

section
/-! PROOFS. `exec` as a function: the fatal condition an instruction takes in a state, if any, and the state it completes in. -/

namespace Sys2Proof.Machine

/-! ### The fatal condition of an instruction -/

/-- The condition of a register operand that names none (R86). -/
def invalidOperand (b : Byte) : Option Fatal := if b.toNat < Config.numRegs then none else some (.invalidRegister b)

/-- The condition of a decrement of this stack pointer (R110). -/
def decrementFatal (sp : Byte) : Option Fatal := if sp.toNat = 0 then some (.outOfBounds (-1)) else none

/-- The condition of an increment of this stack pointer (R111). -/
def incrementFatal (sp : Byte) : Option Fatal := if sp.toNat = 255 then some (.outOfBounds 256) else none

/-- The condition of a CALL at this program counter, by its return address (R124). -/
def returnFatal (pc : Pc) : Option Fatal := if 254 ≤ pc.toNat then some (.outOfBounds 256) else none

/-- The register that an operand byte of 0 to 7 names (R66); of any other byte it says nothing. -/
def operandReg (b : Byte) : RegIdx := Fin.ofNat 8 b.toNat

/-- The state in which POP has loaded its register and not yet moved the stack pointer (R113). -/
def State.popInto (s : State) (a : RegIdx) : State := s.setReg a (Memory.read s.mem s.sp.toNat)

/-- The fatal condition an instruction takes in a state, the first in the order of R158; `none` where it completes. -/
def fatalOf (i : Instr) (s : State) : Option Fatal :=
  match i with
  | .nop | .hlt => none
  | .ret => incrementFatal s.sp
  | .push opA => (invalidOperand opA).or (decrementFatal s.sp)
  | .pop opA => (invalidOperand opA).or (incrementFatal (s.popInto (operandReg opA)).sp)
  | .call opA => (invalidOperand opA).or ((decrementFatal s.sp).or (returnFatal s.pc))
  | .prn opA | .jmp opA | .jeq opA | .jne opA | .ldi opA _ => invalidOperand opA
  | .add opA opB | .mul opA opB | .cmp opA opB => (invalidOperand opA).or (invalidOperand opB)

/-- The state after an instruction that takes no fatal condition. -/
def completed (i : Instr) (s : State) : State :=
  match i with
  | .nop => s.advance 1
  | .hlt => s.halt
  | .ret => (s.setSp (s.sp + 1)).jump (Memory.read s.mem s.sp.toNat)
  | .push opA =>
    let t := s.setSp (s.sp - 1)
    (t.setMem (Memory.write s.mem t.sp.toNat (t.reg (operandReg opA)))).advance 2
  | .pop opA =>
    let t := s.popInto (operandReg opA)
    (t.setSp (t.sp + 1)).advance 2
  | .prn opA => (s.emit (s.reg (operandReg opA))).advance 2
  | .call opA =>
    let t := s.setSp (s.sp - 1)
    (t.setMem (Memory.write s.mem t.sp.toNat (BitVec.ofNat 8 (s.pc.toNat + 2)))).jump (t.reg (operandReg opA))
  | .jmp opA => s.jump (s.reg (operandReg opA))
  | .jeq opA => s.setPc (if s.flagE then zext9 (s.reg (operandReg opA)) else s.pc + 2)
  | .jne opA => s.setPc (if s.flagE then s.pc + 2 else zext9 (s.reg (operandReg opA)))
  | .ldi opA imm => (s.setReg (operandReg opA) imm).advance 3
  | .add opA opB => (s.setReg (operandReg opA) (aluAdd (s.reg (operandReg opA)) (s.reg (operandReg opB)))).advance 3
  | .mul opA opB => (s.setReg (operandReg opA) (aluMul (s.reg (operandReg opA)) (s.reg (operandReg opB)))).advance 3
  | .cmp opA opB => (s.setFl (compareFlags (s.reg (operandReg opA)) (s.reg (operandReg opB)))).advance 3

/-! ### Operands and limits -/

@[simp] theorem invalidOperand_eq_none_iff {b : Byte} : invalidOperand b = none ↔ b.toNat < Config.numRegs := by
  simp [invalidOperand]

@[simp] theorem decrementFatal_eq_none_iff {sp : Byte} : decrementFatal sp = none ↔ 0 < sp.toNat := by
  simp [decrementFatal, Nat.pos_iff_ne_zero]

theorem operandReg_val {b : Byte} (h : b.toNat < Config.numRegs) : (operandReg b).val = b.toNat := Nat.mod_eq_of_lt h

/-- A valid operand byte names the register it selects. -/
theorem operandReg_spec {b : Byte} (h : invalidOperand b = none) : b.toNat = (operandReg b).val :=
  (operandReg_val (invalidOperand_eq_none_iff.mp h)).symm

theorem operandReg_names {b : Byte} {a : RegIdx} (h : b.toNat = a.val) : operandReg b = a :=
  Fin.ext ((operandReg_val (h ▸ a.isLt)).trans h)

theorem invalidOperand_names {b : Byte} {a : RegIdx} (h : b.toNat = a.val) : invalidOperand b = none :=
  if_pos (h ▸ a.isLt)

theorem invalidOperand_lt {b : Byte} (h : b.toNat < 8) : invalidOperand b = none := if_pos h

theorem invalidOperand_bad {b : Byte} (h : 8 ≤ b.toNat) : invalidOperand b = some (.invalidRegister b) :=
  if_neg (Nat.not_lt.mpr h)

/-! ### `exec` is that function -/

/-- The next state of an instruction: it completes, or it takes its fatal condition (R80, R156). -/
def execNext (i : Instr) (s : State) : State := (fatalOf i s).elim (completed i s) (raise · s)

theorem execNext_of_none {i : Instr} {s : State} (h : fatalOf i s = none) : execNext i s = completed i s := by
  rw [execNext, h, Option.elim_none]

theorem execNext_of_some {i : Instr} {s : State} {f : Fatal} (h : fatalOf i s = some f) : execNext i s = raise f s := by
  rw [execNext, h, Option.elim_some]

/-- An instruction whose only condition is that of its one register operand. -/
theorem exec_eq_of_one_operand {i : Instr} {s : State} {opA : Byte} {c : RegIdx → State}
    (he : (∃ a : RegIdx, opA.toNat = a.val ∧ exec i s = .next (c a)) ∨
      (8 ≤ opA.toNat ∧ exec i s = .next (raise (.invalidRegister opA) s)))
    (hf : fatalOf i s = invalidOperand opA) (hc : c (operandReg opA) = completed i s) : exec i s = .next (execNext i s) := by
  rcases he with ⟨a, ha, he⟩ | ⟨h8, he⟩ <;> rw [he]
  · rw [execNext_of_none (hf.trans (invalidOperand_names ha)), ← hc, operandReg_names ha]
  · rw [execNext_of_some (hf.trans (invalidOperand_bad h8))]

/-- An instruction whose only conditions are those of its two register operands. -/
theorem exec_eq_of_two_operands {i : Instr} {s : State} {opA opB : Byte} {c : RegIdx → RegIdx → State}
    (he : (∃ a b : RegIdx, opA.toNat = a.val ∧ opB.toNat = b.val ∧ exec i s = .next (c a b)) ∨
      (8 ≤ opA.toNat ∧ exec i s = .next (raise (.invalidRegister opA) s)) ∨
      (opA.toNat < 8 ∧ 8 ≤ opB.toNat ∧ exec i s = .next (raise (.invalidRegister opB) s)))
    (hf : fatalOf i s = (invalidOperand opA).or (invalidOperand opB))
    (hc : c (operandReg opA) (operandReg opB) = completed i s) : exec i s = .next (execNext i s) := by
  rcases he with ⟨a, b, ha, hb, he⟩ | ⟨h8, he⟩ | ⟨hlt, h8, he⟩ <;> rw [he]
  · rw [invalidOperand_names ha, invalidOperand_names hb] at hf
    rw [execNext_of_none hf, ← hc, operandReg_names ha, operandReg_names hb]
  · rw [invalidOperand_bad h8] at hf
    rw [execNext_of_some hf]
  · rw [invalidOperand_lt hlt, invalidOperand_bad h8] at hf
    rw [execNext_of_some hf]

theorem exec_ret_eq (s : State) : exec .ret s = .next (execNext .ret s) := by
  rcases exec_ret_cases s with ⟨hsp, he⟩ | ⟨hsp, he⟩ <;> rw [he]
  · simp [execNext, fatalOf, completed, incrementFatal, hsp.ne]
  · simp [execNext, fatalOf, incrementFatal, hsp]

theorem exec_push_eq (opA : Byte) (s : State) : exec (.push opA) s = .next (execNext (.push opA) s) := by
  rcases exec_push_cases opA s with ⟨a, ha, hsp, he⟩ | ⟨h8, he⟩ | ⟨hlt, hsp, he⟩ <;> rw [he]
  · simp [execNext, fatalOf, completed, invalidOperand_names ha, operandReg_names ha, decrementFatal, hsp.ne']
  · simp [execNext, fatalOf, invalidOperand_bad h8]
  · simp [execNext, fatalOf, invalidOperand_lt hlt, decrementFatal, hsp]

theorem exec_pop_eq (opA : Byte) (s : State) : exec (.pop opA) s = .next (execNext (.pop opA) s) := by
  rcases exec_pop_cases opA s with ⟨a, ha, hsp, he⟩ | ⟨h8, he⟩ | ⟨a, ha, hsp, he⟩ <;> rw [he]
  · simp only [execNext, fatalOf, completed, State.popInto, invalidOperand_names ha, operandReg_names ha, incrementFatal,
      if_neg hsp.ne, Option.none_or, Option.elim_none]
  · simp [execNext, fatalOf, invalidOperand_bad h8]
  · simp only [execNext, fatalOf, State.popInto, invalidOperand_names ha, operandReg_names ha, incrementFatal, if_pos hsp,
      Option.none_or, Option.elim_some]

theorem exec_call_eq (opA : Byte) (s : State) : exec (.call opA) s = .next (execNext (.call opA) s) := by
  rcases exec_call_cases opA s with ⟨a, ha, hsp, hpc, he⟩ | ⟨h8, he⟩ | ⟨hlt, hsp, he⟩ | ⟨hlt, hsp, hpc, he⟩ <;> rw [he]
  · have hret : ¬ 254 ≤ s.pc.toNat := by omega
    simp [execNext, fatalOf, completed, invalidOperand_names ha, operandReg_names ha, decrementFatal, hsp.ne', returnFatal, hret]
  · simp [execNext, fatalOf, invalidOperand_bad h8]
  · simp [execNext, fatalOf, invalidOperand_lt hlt, decrementFatal, hsp]
  · simp [execNext, fatalOf, invalidOperand_lt hlt, decrementFatal, hsp.ne', returnFatal, hpc]

/-- `exec` answers the next state of every instruction, as `fatalOf` and `completed` give it. -/
theorem exec_eq_execNext (i : Instr) (s : State) : exec i s = .next (execNext i s) := by
  cases i with
  | nop => exact exec_nop s
  | hlt => exact exec_hlt s
  | ret => exact exec_ret_eq s
  | push opA => exact exec_push_eq opA s
  | pop opA => exact exec_pop_eq opA s
  | prn opA => exact exec_eq_of_one_operand (exec_prn_cases opA s) rfl rfl
  | call opA => exact exec_call_eq opA s
  | jmp opA => exact exec_eq_of_one_operand (exec_jmp_cases opA s) rfl rfl
  | jeq opA =>
    refine exec_eq_of_one_operand (exec_jeq_cases opA s) rfl ?_
    rw [completed]
    split <;> rfl
  | jne opA =>
    refine exec_eq_of_one_operand (exec_jne_cases opA s) rfl ?_
    rw [completed]
    split <;> rfl
  | ldi opA imm => exact exec_eq_of_one_operand (exec_ldi_cases opA imm s) rfl rfl
  | add opA opB => exact exec_eq_of_two_operands (exec_add_cases opA opB s) rfl rfl
  | mul opA opB => exact exec_eq_of_two_operands (exec_mul_cases opA opB s) rfl rfl
  | cmp opA opB => exact exec_eq_of_two_operands (exec_cmp_cases opA opB s) rfl rfl

/-- Everything a meaning can do: complete, or take its fatal condition on the state it began in (R80 part 7, R156). -/
theorem exec_next_cases {i : Instr} {s t : State} (h : exec i s = .next t) :
    (fatalOf i s = none ∧ t = completed i s) ∨ ∃ f, fatalOf i s = some f ∧ t = raise f s := by
  cases (exec_eq_execNext i s).symm.trans h
  cases hf : fatalOf i s with
  | none => exact .inl ⟨rfl, execNext_of_none hf⟩
  | some f => exact .inr ⟨f, rfl, execNext_of_some hf⟩

end Sys2Proof.Machine
end

section
/-! PROOFS. Which instruction a fetch finds, from memory itself: the one whose bytes stand at the program counter. -/

namespace Sys2Proof.Machine

/-- Byte k of a fetch is the cell k further on, as long as that is inside memory (R83, R85). -/
theorem getElem?_fetchBytes (s : State) (n a k : Nat) :
    (fetchBytes s n a)[k]? = if k < n ∧ a + k ≤ 255 then some (Memory.read s.mem (a + k)) else none := by
  induction n generalizing a k with
  | zero => simp [fetchBytes]
  | succ n ih =>
    rcases Nat.lt_or_ge 255 a with ha | ha
    · have hout := memRead_outside (addr := a) s (by omega)
      rw [if_neg (by omega), fetchBytes, hout, List.getElem?_nil]
    · have hin := memRead_inside (addr := a) s (by omega) (by omega)
      cases k with
      | zero => simp [fetchBytes, hin, ha]
      | succ k =>
        have hnext : ((a : Int) + 1) = ((a + 1 : Nat) : Int) := by omega
        simp only [fetchBytes, hin, hnext, List.getElem?_cons_succ, ih, Nat.succ_lt_succ_iff, Nat.add_assoc, Nat.add_comm 1 k]

theorem getElem?_bytesAtPc (s : State) (k : Nat) :
    (bytesAtPc s)[k]? = if k < 3 ∧ s.pc.toNat + k ≤ 255 then some (Memory.read s.mem (s.pc.toNat + k)) else none :=
  getElem?_fetchBytes s 3 s.pc.toNat k

theorem length_encode_le (i : Instr) : (encode i).length ≤ 3 := by
  cases i <;> simp [encode, Instr.operandBytes]

/-- The bytes of an instruction stand at the program counter exactly when a fetch sees them at the front. -/
theorem holdsAtPc_iff_isPrefix {s : State} {i : Instr} : s.HoldsAtPc i ↔ encode i <+: bytesAtPc s := by
  rw [List.prefix_iff_getElem?]
  constructor
  · intro h k hk
    obtain ⟨hfits, hread⟩ := h k _ (List.getElem?_eq_getElem hk)
    rw [getElem?_bytesAtPc, if_pos ⟨hk.trans_le (length_encode_le i), hfits⟩, hread]
  · intro h k v hv
    obtain ⟨hk, rfl⟩ := List.getElem?_eq_some_iff.mp hv
    have hbyte := h k hk
    rw [getElem?_bytesAtPc] at hbyte
    split at hbyte
    case isTrue hfits => exact ⟨hfits.2, Option.some.inj hbyte⟩
    case isFalse => cases hbyte

theorem decode_encode_append (i : Instr) (rest : List Byte) : decode (encode i ++ rest) = .ok (i, rest) := by
  cases i <;> rfl

theorem decode_ok_encode {bytes rest : List Byte} {i : Instr} (h : decode bytes = .ok (i, rest)) : bytes = encode i ++ rest := by
  rcases decode_cases bytes with ⟨j, r, hj, hbytes⟩ | ⟨_, _, hj, -⟩ | ⟨hj, -⟩
  · cases h.symm.trans hj
    exact hbytes
  · cases h.symm.trans hj
  · cases h.symm.trans hj

/-- The opcode's byte of an instruction that stands at the program counter. -/
theorem State.HoldsAtPc.opcode {s : State} {i : Instr} (h : s.HoldsAtPc i) :
    s.pc.toNat ≤ 255 ∧ Memory.read s.mem s.pc.toNat = i.opcode := h 0 i.opcode rfl

/-- A fetch finds an instruction exactly when its bytes stand at the program counter (R80, R85). -/
theorem fetch_eq_ok_iff {s : State} {i : Instr} : fetch s = .ok i ↔ s.HoldsAtPc i := by
  rw [holdsAtPc_iff_isPrefix]
  constructor
  · intro h
    rcases fetch_cases s with ⟨-, hf⟩ | ⟨-, j, rest, hd, hf⟩ | ⟨-, e, -, hf⟩
    · cases h.symm.trans hf
    · cases h.symm.trans hf
      exact ⟨rest, (decode_ok_encode hd).symm⟩
    · cases h.symm.trans hf
  · intro h
    have hpc := (holdsAtPc_iff_isPrefix.mpr h).opcode.1
    obtain ⟨rest, hrest⟩ := h
    rw [fetch, if_neg (Nat.not_lt.mpr hpc), ← hrest, decode_encode_append]

/-- A fetch reads the program counter and memory, and nothing else. -/
theorem fetch_congr {s t : State} (hpc : t.pc = s.pc) (hmem : t.mem = s.mem) : fetch t = fetch s := by
  have hbytes : bytesAtPc t = bytesAtPc s := by
    apply List.ext_getElem?
    intro k
    rw [getElem?_bytesAtPc, getElem?_bytesAtPc, hpc, hmem]
  have hfatal : fetchFatal t = fetchFatal s := by
    funext e
    cases e <;> simp [fetchFatal, hpc]
  rw [fetch, fetch, hpc, hbytes, hfatal]

end Sys2Proof.Machine
end

section
/-! PROOFS. Frames: what an instruction can do to each component, one lemma per component over all instructions; then the frames of the
four families. -/

namespace Sys2Proof

/-- The registers an instruction can write: the one its first operand names for LDI, ADD, MUL and POP, and register 7 where the stack is
used (R21, R22). -/
def Instr.WritesReg (i : Instr) (r : RegIdx) : Prop :=
  match i with
  | .ldi opA _ | .add opA _ | .mul opA _ => opA.toNat = r.val
  | .pop opA => opA.toNat = r.val ∨ r = 7
  | .ret | .push _ | .call _ => r = 7
  | _ => False

/-- The instructions that store a byte (R41). -/
def Instr.Stores (i : Instr) : Prop :=
  match i with
  | .push _ | .call _ => True
  | _ => False

namespace Machine

/-! ### What an instruction can do to each component -/

theorem operandReg_ne {b : Byte} {r : RegIdx} (hb : invalidOperand b = none) (hr : b.toNat ≠ r.val) : operandReg b ≠ r := by
  rintro rfl
  exact hr (operandReg_spec hb)

theorem reg_setReg_ne {s : State} {i r : RegIdx} (h : i ≠ r) (v : Byte) : (s.setReg i v).reg r = s.reg r := by
  rw [State.reg_setReg, if_neg h]

theorem reg_setSp_ne {s : State} {r : RegIdx} (h : r ≠ 7) (v : Byte) : (s.setSp v).reg r = s.reg r := reg_setReg_ne h.symm v

theorem completed_reg {i : Instr} {s : State} {r : RegIdx} (hf : fatalOf i s = none) (hr : ¬ i.WritesReg r) :
    (completed i s).reg r = s.reg r := by
  cases i with
  | ret => exact reg_setSp_ne hr _
  | push opA => exact reg_setSp_ne hr _
  | call opA => exact reg_setSp_ne hr _
  | pop opA =>
    obtain ⟨hA, -⟩ := Option.or_eq_none_iff.mp hf
    obtain ⟨hop, h7⟩ := not_or.mp hr
    exact (reg_setSp_ne h7 _).trans (reg_setReg_ne (operandReg_ne hA hop) _)
  | ldi opA imm => exact reg_setReg_ne (operandReg_ne hf hr) _
  | add opA opB => exact reg_setReg_ne (operandReg_ne (Option.or_eq_none_iff.mp hf).1 hr) _
  | mul opA opB => exact reg_setReg_ne (operandReg_ne (Option.or_eq_none_iff.mp hf).1 hr) _
  | _ => rfl

/-- HLT aside, an instruction that completes leaves run state and halt record as they were. -/
theorem completed_record {i : Instr} (hi : i ≠ .hlt) (s : State) :
    (completed i s).run = s.run ∧ (completed i s).cause = s.cause ∧ (completed i s).info = s.info := by
  cases i with
  | hlt => exact absurd rfl hi
  | _ => exact ⟨rfl, rfl, rfl⟩

section

variable {i : Instr} {s t : State}

/-- No register is written but those the instruction names, and register 7 where it uses the stack. -/
theorem exec_reg {r : RegIdx} (h : exec i s = .next t) (hr : ¬ i.WritesReg r) : t.reg r = s.reg r := by
  rcases exec_next_cases h with ⟨hf, rfl⟩ | ⟨f, -, rfl⟩
  · exact completed_reg hf hr
  · rfl

theorem decrementFatal_of_stores (hi : i.Stores) (hf : fatalOf i s = none) : decrementFatal s.sp = none := by
  cases i with
  | push opA => exact (Option.or_eq_none_iff.mp hf).2
  | call opA => exact (Option.or_eq_none_iff.mp (Option.or_eq_none_iff.mp hf).2).1
  | _ => cases hi

theorem completed_mem (hi : ¬ i.Stores) : (completed i s).mem = s.mem := by
  cases i with
  | push opA => exact absurd trivial hi
  | call opA => exact absurd trivial hi
  | _ => rfl

theorem completed_mem_stores (hi : i.Stores) : ∃ v, (completed i s).mem = Memory.write s.mem (s.sp - 1).toNat v := by
  cases i with
  | push opA => exact ⟨_, by rw [← State.sp_setSp s (s.sp - 1)]; rfl⟩
  | call opA => exact ⟨_, by rw [← State.sp_setSp s (s.sp - 1)]; rfl⟩
  | _ => cases hi

/-- Memory is kept, or PUSH or CALL wrote one byte below a stack pointer that is not 0 (R41, R110). -/
theorem exec_mem_cases (h : exec i s = .next t) :
    t.mem = s.mem ∨ (i.Stores ∧ 0 < s.sp.toNat ∧ ∃ v, t.mem = Memory.write s.mem (s.sp - 1).toNat v) := by
  rcases exec_next_cases h with ⟨hf, rfl⟩ | ⟨f, -, rfl⟩
  · by_cases hi : i.Stores
    · exact .inr ⟨hi, decrementFatal_eq_none_iff.mp (decrementFatal_of_stores hi hf), completed_mem_stores hi⟩
    · exact .inl (completed_mem hi)
  · exact .inl rfl

/-- FL is kept, or CMP wrote the value of a comparison (R27, R103). -/
theorem exec_fl_cases (h : exec i s = .next t) :
    t.fl = s.fl ∨ ∃ opA opB p q, i = .cmp opA opB ∧ t.fl = compareFlags p q := by
  rcases exec_next_cases h with ⟨-, rfl⟩ | ⟨f, -, rfl⟩
  · cases i with
    | cmp opA opB => exact .inr ⟨opA, opB, _, _, rfl, rfl⟩
    | _ => exact .inl rfl
  · exact .inl rfl

/-- The output stream is kept, or PRN appended the value of the register it names (R31, R132). -/
theorem exec_out_cases (h : exec i s = .next t) :
    t.out = s.out ∨ ∃ (opA : Byte) (a : RegIdx), i = .prn opA ∧ opA.toNat = a.val ∧ t.out = s.out ++ [s.reg a] := by
  rcases exec_next_cases h with ⟨hf, rfl⟩ | ⟨f, -, rfl⟩
  · cases i with
    | prn opA => exact .inr ⟨opA, operandReg opA, rfl, operandReg_spec hf, rfl⟩
    | _ => exact .inl rfl
  · exact .inl rfl

/-- The halt record is kept by every instruction but HLT, or it is written and nothing else is (R28, R142, R156). -/
theorem exec_record_cases (h : exec i s = .next t) :
    (i ≠ .hlt ∧ t.run = s.run ∧ t.cause = s.cause ∧ t.info = s.info) ∨
    t = { s with run := .halted, cause := t.cause, info := t.info } := by
  rcases exec_next_cases h with ⟨-, rfl⟩ | ⟨f, -, rfl⟩
  · by_cases hi : i = .hlt
    · subst hi
      exact .inr rfl
    · exact .inl ⟨hi, completed_record hi s⟩
  · exact .inr rfl

theorem exec_mem_of_not_stores (h : exec i s = .next t) (hi : ¬ i.Stores) : t.mem = s.mem :=
  (exec_mem_cases h).resolve_right fun hst => hi hst.1

theorem exec_fl_of_ne_cmp (h : exec i s = .next t) (hi : ∀ opA opB, i ≠ .cmp opA opB) : t.fl = s.fl :=
  (exec_fl_cases h).resolve_right fun ⟨opA, opB, _, _, hcmp, _⟩ => hi opA opB hcmp

theorem exec_out_of_ne_prn (h : exec i s = .next t) (hi : ∀ opA, i ≠ .prn opA) : t.out = s.out :=
  (exec_out_cases h).resolve_right fun ⟨opA, _, hprn, _⟩ => hi opA hprn

/-- An instruction keeps the halt record, or it writes that and nothing else. -/
theorem exec_record (h : exec i s = .next t) :
    (t.run = s.run ∧ t.cause = s.cause ∧ t.info = s.info) ∨ t = { s with run := .halted, cause := t.cause, info := t.info } :=
  (exec_record_cases h).imp_left And.right

/-- The cells an instruction that stores can change: none where the decrement raises, else the one at the stack pointer it leaves. -/
theorem read_after_exec_of_spDec (h : exec i s = .next t) :
    (∀ s1, spDec s = .ok s1 → ∀ a : Nat, (a : Int) ≠ s1.stackAddr → Memory.read t.mem a = Memory.read s.mem a) ∧
    (∀ f, spDec s = .error f → ∀ a, Memory.read t.mem a = Memory.read s.mem a) := by
  rcases exec_mem_cases h with hmem | ⟨-, hsp, v, hmem⟩ <;> rw [hmem]
  · exact ⟨fun _ _ _ _ => rfl, fun _ _ _ => rfl⟩
  · constructor
    · intro s1 hs1 a ha
      cases (spDec_pos hsp).symm.trans hs1
      rw [State.stackAddr, State.sp_setSp] at ha
      exact Memory.read_write_other _ _ _ _ fun heq => ha (congrArg Nat.cast heq)
    · intro f hf
      cases (spDec_pos hsp).symm.trans hf

end

/-! ### The obligations -/

/-- Settles O43: none of the seven writes a register or stores, and what is left is the frame of each component. -/
theorem frameOfInstructionsWithoutADestination : Obligations.FrameOfInstructionsWithoutADestination := by
  intro opA opB s t i hi h
  have hreg (r : RegIdx) : ¬ i.WritesReg r := by fin_cases hi <;> exact id
  have hmem : ¬ i.Stores := by fin_cases hi <;> exact id
  refine ⟨fun r => exec_reg h (hreg r), fun a => by rw [exec_mem_of_not_stores h hmem], fun hne => ?_, fun hne => ?_,
    exec_record_cases h⟩
  · refine exec_fl_of_ne_cmp h ?_
    rintro _ _ rfl
    exact hne (by simpa using hi)
  · refine exec_out_of_ne_prn h ?_
    rintro _ rfl
    exact hne (by simpa using hi)

/-- Settles O44: each of the three writes the register its first operand names and stores nothing. -/
theorem frameOfRegisterInstructions : Obligations.FrameOfRegisterInstructions := by
  intro opA opB s t i hi h
  have hreg (r : RegIdx) (hr : r.val ≠ opA.toNat) : ¬ i.WritesReg r := by fin_cases hi <;> exact hr.symm
  have hmem : ¬ i.Stores := by fin_cases hi <;> exact id
  refine ⟨fun r hr => exec_reg h (hreg r hr), fun a => by rw [exec_mem_of_not_stores h hmem], exec_fl_of_ne_cmp h ?_,
    exec_out_of_ne_prn h ?_, exec_record h⟩
  · rintro _ _ rfl
    simp at hi
  · rintro _ rfl
    simp at hi

/-- Settles O45: both write register 7 alone, and the one byte they store is at the stack pointer that SpDec leaves. -/
theorem frameOfStoringInstructions : Obligations.FrameOfStoringInstructions := by
  intro opA s t i hi h
  have hreg (r : RegIdx) (hr : r ≠ 7) : ¬ i.WritesReg r := by fin_cases hi <;> exact hr
  obtain ⟨hok, herror⟩ := read_after_exec_of_spDec h
  refine ⟨fun r hr => exec_reg h (hreg r hr), hok, herror, exec_fl_of_ne_cmp h ?_, exec_out_of_ne_prn h ?_,
    exec_record h⟩
  · rintro _ _ rfl
    simp at hi
  · rintro _ rfl
    simp at hi

/-- Settles O46: POP writes its operand and register 7, RET register 7 alone, and neither stores. -/
theorem frameOfPoppingInstructions : Obligations.FrameOfPoppingInstructions := by
  intro opA s t i hi h
  have hreg (r : RegIdx) (h7 : r ≠ 7) (hop : i = .ret ∨ r.val ≠ opA.toNat) : ¬ i.WritesReg r := by
    fin_cases hi
    · exact not_or.mpr ⟨(hop.resolve_left nofun).symm, h7⟩
    · exact h7
  have hmem : ¬ i.Stores := by fin_cases hi <;> exact id
  refine ⟨fun r h7 hop => exec_reg h (hreg r h7 hop), fun a => by rw [exec_mem_of_not_stores h hmem], exec_fl_of_ne_cmp h ?_,
    exec_out_of_ne_prn h ?_, exec_record h⟩
  · rintro _ _ rfl
    simp at hi
  · rintro _ rfl
    simp at hi

end Machine
end Sys2Proof
end

section
/-! PROOFS. Rules of the whole machine: what a step can change, and where the program counter goes. -/

namespace Sys2Proof.Machine

/-! ### The step, by what stands at the program counter -/

/-- A step keeps the state, takes a fatal condition, or runs the instruction that stands at the program counter (R80, R81). -/
theorem step_next_cases {s t : State} (h : step s = .next t) :
    t = s ∨ (∃ f, t = raise f s) ∨ ∃ i, s.HoldsAtPc i ∧ exec i s = .next t := by
  rcases step_cases h with ⟨-, rfl⟩ | ⟨-, i, hf, he⟩ | ⟨-, f, -, rfl⟩
  · exact .inl rfl
  · exact .inr (.inr ⟨i, fetch_eq_ok_iff.mp hf, he⟩)
  · exact .inr (.inl ⟨f, rfl⟩)

/-- Settles O48: a step that changes FL runs CMP, whose opcode stands at the program counter. -/
theorem flagsAreSetOnlyByCmp : Obligations.FlagsAreSetOnlyByCmp := by
  intro s t h hne
  rcases step_next_cases h with rfl | ⟨f, rfl⟩ | ⟨i, hi, he⟩
  · exact absurd rfl hne
  · exact absurd rfl hne
  · obtain ⟨opA, opB, p, q, rfl, hfl⟩ := (exec_fl_cases he).resolve_left hne
    refine ⟨hi.opcode.1, hi.opcode.2, ?_⟩
    rw [hfl]
    rcases compareFlags_cases p q with ⟨-, hv⟩ | ⟨-, hv⟩ | ⟨-, hv⟩ <;> simp [hv]

/-- Settles O49: a step that changes the output stream runs PRN, whose two bytes stand at the program counter. -/
theorem outputGrowsOnlyByPrn : Obligations.OutputGrowsOnlyByPrn := by
  intro s t h hne
  rcases step_next_cases h with rfl | ⟨f, rfl⟩ | ⟨i, hi, he⟩
  · exact absurd rfl hne
  · exact absurd rfl hne
  · obtain ⟨opA, a, rfl, ha, hout⟩ := (exec_out_cases he).resolve_left hne
    obtain ⟨hfits, hoperand⟩ := hi 1 opA rfl
    exact ⟨by omega, hi.opcode.2, a, hoperand ▸ ha, hout⟩

/-! ### Where the program counter goes -/

/-- A sequential advance that does not leave the 257 values of the program counter is plain addition (R24). -/
theorem advance_pc_toNat {s : State} {n : Nat} (h : s.pc.toNat + n ≤ 256) : (s.pc + BitVec.ofNat 9 n).toNat = s.pc.toNat + n := by
  rw [BitVec.toNat_add, BitVec.toNat_ofNat]
  omega

theorem zext9_le (v : Byte) : (zext9 v).toNat ≤ 255 := by
  rw [zext9_toNat]
  exact Nat.le_of_lt_succ v.isLt

/-- The instruction goes on to the next one in memory, rather than to an address it is given (R92, R120). -/
def Sequential (s : State) : Instr → Prop
  | .hlt | .ret | .call _ | .jmp _ => False
  | .jeq _ => s.flagE = false
  | .jne _ => s.flagE = true
  | _ => True

/-- An instruction inside memory that goes on sequentially ends at the byte after its last one. -/
theorem completed_pc_of_sequential {i : Instr} {s : State} (hseq : Sequential s i) (hfits : s.pc.toNat + (encode i).length ≤ 256) :
    (completed i s).pc.toNat = s.pc.toNat + (encode i).length := by
  refine Eq.trans (congrArg BitVec.toNat ?_) (advance_pc_toNat hfits)
  cases i with
  | hlt => cases hseq
  | ret => cases hseq
  | call opA => cases hseq
  | jmp opA => cases hseq
  | jeq opA => exact if_neg (ne_true_of_eq_false hseq)
  | jne opA => exact if_pos hseq
  | _ => rfl

/-- Any other instruction that completes inside memory ends inside memory. -/
theorem completed_pc_of_not_sequential {i : Instr} {s : State} (hseq : ¬ Sequential s i) (hpc : s.pc.toNat ≤ 255) :
    (completed i s).pc.toNat ≤ 255 := by
  cases i with
  | hlt => exact hpc
  | ret => exact zext9_le _
  | call opA => exact zext9_le _
  | jmp opA => exact zext9_le _
  | jeq opA =>
    have hE : s.flagE = true := Bool.eq_true_of_not_eq_false hseq
    simpa [completed, hE] using zext9_le _
  | jne opA =>
    have hE : s.flagE = false := Bool.eq_false_of_not_eq_true hseq
    simpa [completed, hE] using zext9_le _
  | _ => exact absurd trivial hseq

/-- Settles O53: only a sequential advance ends above 255, and its instruction lies inside memory. -/
theorem programCounterLeavesMemoryOnlyInSequence : Obligations.ProgramCounterLeavesMemoryOnlyInSequence := by
  intro s t hpc h ht
  rcases step_next_cases h with rfl | ⟨f, rfl⟩ | ⟨i, hi, he⟩
  · exact absurd hpc (Nat.not_le.mpr ht)
  · exact absurd hpc (Nat.not_le.mpr ht)
  · rcases exec_next_cases he with ⟨-, rfl⟩ | ⟨f, -, rfl⟩
    · have hseq : Sequential s i := by
        by_contra hseq
        exact absurd (completed_pc_of_not_sequential hseq hpc) (Nat.not_le.mpr ht)
      have hfits := fetch_ok_fits (fetch_eq_ok_iff.mpr hi)
      have hnext := completed_pc_of_sequential hseq hfits
      refine ⟨by omega, i, hi, by omega, ?_⟩
      cases i with
      | hlt => cases hseq
      | ret => cases hseq
      | call opA => cases hseq
      | jmp opA => cases hseq
      | jeq opA => exact .inl ⟨opA, rfl, hseq⟩
      | jne opA => exact .inr (.inl ⟨opA, rfl, hseq⟩)
      | _ => exact .inr (.inr ⟨nofun, nofun, fun _ => ⟨nofun, nofun, nofun, nofun⟩⟩)
    · exact absurd hpc (Nat.not_le.mpr ht)

/-- Settles O52: the instruction that stands at the program counter completes, and its length or its register gives the next one. -/
theorem nextProgramCounter : Obligations.NextProgramCounter := by
  intro s t i hrun hi h hgoes
  have hfetch := fetch_eq_ok_iff.mpr hi
  rw [step_of_fetch_ok hrun hfetch] at h
  have hseq (hs : Sequential s i) := completed_pc_of_sequential hs (fetch_ok_fits hfetch)
  rcases exec_next_cases h with ⟨hf, rfl⟩ | ⟨f, -, rfl⟩
  · cases i with
    | hlt => cases hgoes
    | ret => exact zext9_toNat _
    | call opA => exact ⟨operandReg opA, operandReg_spec (Option.or_eq_none_iff.mp hf).1, zext9_toNat _⟩
    | jmp opA => exact ⟨operandReg opA, operandReg_spec hf, zext9_toNat _⟩
    | jeq opA =>
      refine ⟨operandReg opA, operandReg_spec hf, ?_⟩
      cases hE : s.flagE with
      | false => exact hseq hE
      | true => simpa [completed, hE] using zext9_toNat _
    | jne opA =>
      refine ⟨operandReg opA, operandReg_spec hf, ?_⟩
      cases hE : s.flagE with
      | false => simpa [completed, hE] using zext9_toNat _
      | true => exact hseq hE
    | _ => exact hseq trivial
  · cases hgoes

end Sys2Proof.Machine
end

section
/-! PROOFS. What no step reads: the flags but E, the output stream and the halt record. -/

namespace Sys2Proof.Machine

/-! ### States that differ in FL, output stream and halt record alone -/

/-- The two states have the same registers, program counter, memory and run state. -/
structure Alike (s u : State) : Prop where
  regs : u.regs = s.regs
  pc : u.pc = s.pc
  mem : u.mem = s.mem
  run : u.run = s.run

theorem Alike.refl (s : State) : Alike s s := ⟨rfl, rfl, rfl, rfl⟩

/-- The fatal condition of an instruction depends on what alike states share. -/
theorem Alike.fatalOf_eq {s u : State} (h : Alike s u) (i : Instr) : fatalOf i u = fatalOf i s := by
  obtain ⟨regs, pc, fl, mem, run, cause, info, out⟩ := s
  obtain ⟨rfl, rfl, rfl, -⟩ := h
  cases i <;> rfl

/-- Alike states take steps of one kind: all stay, all take the same fatal condition, or all complete the same instruction. -/
theorem step_alike (s : State) :
    (s.run = .halted ∧ ∀ u, Alike s u → step u = .next u) ∨
    (∃ f, ∀ u, Alike s u → step u = .next (raise f u)) ∨
    (s.run = .running ∧ ∃ i, ∀ u, Alike s u → step u = .next (completed i u)) := by
  cases hrun : s.run with
  | halted => exact .inl ⟨rfl, fun u hu => step_of_halted (hu.run.trans hrun)⟩
  | running =>
    cases hf : fetch s with
    | error f =>
      exact .inr (.inl ⟨f, fun u hu => step_of_fetch_error (hu.run.trans hrun) ((fetch_congr hu.pc hu.mem).trans hf)⟩)
    | ok i =>
      have hstep (u : State) (hu : Alike s u) : step u = .next (execNext i u) :=
        (step_of_fetch_ok (hu.run.trans hrun) ((fetch_congr hu.pc hu.mem).trans hf)).trans (exec_eq_execNext i u)
      cases hi : fatalOf i s with
      | none => exact .inr (.inr ⟨rfl, i, fun u hu => by rw [hstep u hu, execNext_of_none ((hu.fatalOf_eq i).trans hi)]⟩)
      | some f => exact .inr (.inl ⟨f, fun u hu => by rw [hstep u hu, execNext_of_some ((hu.fatalOf_eq i).trans hi)]⟩)

/-! ### The flags -/

/-- An instruction that completes reads no flag but E, and keeps FL or writes the whole of it. -/
theorem completed_with_fl (i : Instr) {s : State} {f : Byte} (hE : f.getLsbD 0 = s.fl.getLsbD 0) :
    ∃ g, completed i { s with fl := f } = { completed i s with fl := g } ∧
      (g = (completed i s).fl ∨ (g = f ∧ (completed i s).fl = s.fl)) := by
  cases i with
  | cmp opA opB => exact ⟨_, rfl, .inl rfl⟩
  | jeq opA => exact ⟨f, by simp only [completed, State.flagE, hE]; rfl, .inr ⟨rfl, rfl⟩⟩
  | jne opA => exact ⟨f, by simp only [completed, State.flagE, hE]; rfl, .inr ⟨rfl, rfl⟩⟩
  | _ => exact ⟨f, rfl, .inr ⟨rfl, rfl⟩⟩

/-- Settles O54: the two states take steps of one kind, and only a completed instruction can read or write FL. -/
theorem onlyTheEqualFlagIsRead : Obligations.OnlyTheEqualFlagIsRead := by
  intro s t f hE h
  have halike : Alike s { s with fl := f } := ⟨rfl, rfl, rfl, rfl⟩
  rcases step_alike s with ⟨-, hs⟩ | ⟨e, hs⟩ | ⟨-, i, hs⟩ <;> cases h.symm.trans (hs s (.refl s))
  · exact ⟨f, hs _ halike, .inr ⟨rfl, rfl⟩⟩
  · exact ⟨f, hs _ halike, .inr ⟨rfl, rfl⟩⟩
  · obtain ⟨g, hg, hfl⟩ := completed_with_fl i hE
    exact ⟨g, (hs _ halike).trans (congrArg _ hg), hfl⟩

/-! ### The output stream -/

/-- What an instruction that completes appends to the output stream (R132). -/
def outputOf (s : State) : Instr → List Byte
  | .prn opA => [s.reg (operandReg opA)]
  | _ => []

theorem length_outputOf_le (s : State) (i : Instr) : (outputOf s i).length ≤ 1 := by
  cases i with
  | prn opA => exact le_rfl
  | _ => exact Nat.zero_le 1

/-- An instruction that completes appends the same values to any stream and does all else alike. -/
theorem completed_with_out (i : Instr) (s : State) (o : List Byte) :
    completed i { s with out := o } = { completed i s with out := o ++ outputOf s i } := by
  cases i with
  | prn opA => rfl
  | _ =>
    rw [outputOf, List.append_nil]
    · rfl
    · nofun

/-- Settles O55: all states that differ in the stream alone take steps of one kind, and only a completed PRN appends to it. -/
theorem outputIsNeverRead : Obligations.OutputIsNeverRead := by
  intro s t h
  have halike (o : List Byte) : Alike s { s with out := o } := ⟨rfl, rfl, rfl, rfl⟩
  rcases step_alike s with ⟨-, hs⟩ | ⟨f, hs⟩ | ⟨-, i, hs⟩ <;> cases h.symm.trans (hs s (.refl s))
  · exact ⟨[], Nat.zero_le 1, (List.append_nil _).symm, fun o => by rw [hs _ (halike o), List.append_nil]⟩
  · exact ⟨[], Nat.zero_le 1, (List.append_nil _).symm, fun o => by rw [hs _ (halike o), List.append_nil]; rfl⟩
  · exact ⟨outputOf s i, length_outputOf_le s i, congrArg State.out (completed_with_out i s s.out),
      fun o => (hs _ (halike o)).trans (congrArg _ (completed_with_out i s o))⟩

/-! ### The halt record -/

/-- HLT aside, an instruction that completes keeps the halt record and does all else alike whatever it is. -/
theorem completed_with_record {i : Instr} (hi : i ≠ .hlt) (s : State) (c : Cause) (n : Info) :
    completed i { s with cause := c, info := n } = { completed i s with cause := c, info := n } := by
  cases i with
  | hlt => exact absurd rfl hi
  | _ => rfl

/-- In the invariant a RUNNING machine's record is None and 0, so two RUNNING states that differ in it alone are the same state. -/
theorem eq_of_running_of_inv {s u : State} (hs : s.Inv) (hu : u.Inv) (hrun : s.run = .running)
    (heq : u = { s with cause := u.cause, info := u.info }) : u = s := by
  have hurun : u.run = .running := (congrArg State.run heq).trans hrun
  obtain ⟨hsc, hsn⟩ := (haltRecord_running hrun).mp hs.record
  obtain ⟨huc, hun⟩ := (haltRecord_running hurun).mp hu.record
  rw [heq, huc, hun, ← hsc, ← hsn]

/-- Settles O56: both states take steps of one kind; HLT and a fatal condition overwrite the record, the rest keeps it. -/
theorem haltRecordIsNeverRead : Obligations.HaltRecordIsNeverRead := by
  refine ⟨fun s t c n hrun h => ?_, fun s c n hrun => step_of_halted hrun, fun s t u hs hu heq h => ?_⟩
  · have halike : Alike s { s with cause := c, info := n } := ⟨rfl, rfl, rfl, rfl⟩
    rcases step_alike s with ⟨hhalted, -⟩ | ⟨f, hstep⟩ | ⟨-, i, hstep⟩
    · cases hrun.symm.trans hhalted
    · cases h.symm.trans (hstep s (.refl s))
      exact .inr ⟨rfl, hstep _ halike⟩
    · cases h.symm.trans (hstep s (.refl s))
      by_cases hi : i = .hlt
      · subst hi
        exact .inr ⟨rfl, hstep _ halike⟩
      · obtain ⟨hrun', hcause, hinfo⟩ := completed_record hi s
        exact .inl ⟨hrun'.trans hrun, hcause, hinfo, (hstep _ halike).trans (congrArg _ (completed_with_record hi s c n))⟩
  · cases hrun : s.run with
    | running => exact .inl ⟨rfl, eq_of_running_of_inv hs hu hrun heq⟩
    | halted =>
      cases h.symm.trans (step_of_halted hrun)
      exact .inr ⟨rfl, rfl, step_of_halted ((congrArg State.run heq).trans hrun)⟩

end Sys2Proof.Machine
end

section
/-! PROOFS. Memory as the 256 cells of R40: what a load and a write leave in each cell, and the one canonical form of equal cells. -/

namespace Sys2Proof.Machine

/-! ### The load of bytes -/

/-- Placed bytes stand at ascending addresses from `a` up to the last address of memory, and every other cell is as it was (R181). -/
theorem Memory.read_place (m : Memory) (a : Nat) (vs : List Byte) (b : Nat) :
    Memory.read (Memory.place m a vs) b =
      if a ≤ b ∧ b < Config.memSize then vs.getD (b - a) (Memory.read m b) else Memory.read m b := by
  induction vs generalizing m a with
  | nil => simp [Memory.place]
  | cons v vs ih =>
    rw [Memory.place]
    split
    case isTrue ha =>
      rw [ih, Memory.read_write]
      rcases Nat.lt_trichotomy a b with hab | rfl | hab
      · have hnext : b - a = b - (a + 1) + 1 := by omega
        rw [if_neg hab.ne, hnext, List.getD_cons_succ]
        simp only [Nat.succ_le_of_lt hab, hab.le]
      · simp [ha]
      · simp [Nat.not_le.mpr hab, hab.ne', Nat.not_le.mpr (Nat.lt_succ_of_lt hab)]
    case isFalse ha => rw [if_neg (by omega)]

/-- Byte a of the image stands at address a, and the rest of memory is 0x00 (R35, R181). -/
theorem Memory.read_loadImage (image : List Byte) {a : Nat} (ha : a < Config.memSize) :
    Memory.read (loadImage image) a = image.getD a Config.memInit := by
  rw [loadImage, Memory.read_place, if_pos ⟨Nat.zero_le a, ha⟩, Memory.read_nil]
  rfl

/-! ### Accesses at an address -/

/-- A write that does not raise is inside memory and stores the byte (R45). -/
theorem memWrite_eq_ok {addr : Int} {v : Byte} {s t : State} (h : memWrite addr v s = .ok t) :
    0 ≤ addr ∧ addr ≤ 255 ∧ t = s.setMem (Memory.write s.mem addr.toNat v) := by
  by_cases hout : addr < 0 ∨ 255 < addr
  · cases (memWrite_outside v s hout).symm.trans h
  · obtain ⟨h0, h255⟩ := not_or.mp hout
    cases (memWrite_inside v s (Int.not_lt.mp h0) (Int.not_lt.mp h255)).symm.trans h
    exact ⟨Int.not_lt.mp h0, Int.not_lt.mp h255, rfl⟩

/-- Settles O9: the two cases of MemRead, the read after a write, and the load of an image byte by byte. -/
theorem memReadGivesTheLastWrite : Obligations.MemReadGivesTheLastWrite := by
  refine ⟨fun _ s h => memRead_outside s h, fun _ s h0 h255 => memRead_inside s h0 h255, fun addr addr' v s t h h0' h255' => ?_,
    fun image a ha => ?_⟩
  · obtain ⟨h0, -, rfl⟩ := memWrite_eq_ok h
    have haddr : addr.toNat = addr'.toNat ↔ addr' = addr := by omega
    rw [memRead_inside _ h0' h255', memRead_inside _ h0' h255', State.setMem_mem, Memory.read_write, ← apply_ite Except.ok]
    simp only [haddr]
  · rw [memRead_inside _ (by omega) (by omega), resetWith_mem, Int.toNat_natCast, Memory.read_loadImage image ha]
    rfl

/-- Settles O10: inside memory the next memory is that of `Memory.write`, which no other cell tells from the old one. -/
theorem memWriteChangesOneCell : Obligations.MemWriteChangesOneCell := by
  refine ⟨fun _ v s h => memWrite_outside v s h, fun addr v s h0 h255 => ⟨_, memWrite_inside v s h0 h255, fun a => ?_⟩⟩
  have haddr : addr.toNat = a ↔ (a : Int) = addr := by omega
  simp only [Memory.read_write, haddr]

/-! ### The canonical form -/

/-- With rising addresses, no entry hides another: each is what its address reads as. -/
theorem Memory.read_of_mem {m : Memory} (h : m.Pairwise fun c d => c.1 < d.1) {c : Host.Cell} (hc : c ∈ m) :
    Memory.read m c.1 = c.2 := by
  induction m with
  | nil => cases hc
  | cons d m ih =>
    obtain ⟨hd, hm⟩ := List.pairwise_cons.mp h
    rw [Memory.read_cons]
    rcases List.mem_cons.mp hc with rfl | hc
    · exact if_pos rfl
    · rw [if_neg (hd c hc).ne, ih hm hc]

/-- An address that reads as something other than 0x00 has an entry. -/
theorem Memory.mem_of_read_ne {m : Memory} {a : Nat} (h : Memory.read m a ≠ Config.memInit) : (a, Memory.read m a) ∈ m := by
  induction m with
  | nil => exact absurd (Memory.read_nil a) h
  | cons d m ih =>
    rw [Memory.read_cons] at h ⊢
    split at h
    case isTrue hd => simp [← hd]
    case isFalse hd => simp [hd, ih h]

/-- The entries of a canonical memory are the cells that read as something other than 0x00 (log 4). -/
theorem Memory.mem_iff_read {m : Memory} (h : Memory.wf m) (c : Host.Cell) :
    c ∈ m ↔ Memory.read m c.1 = c.2 ∧ c.2 ≠ Config.memInit := by
  obtain ⟨hrising, hlisted⟩ := h
  constructor
  · exact fun hc => ⟨Memory.read_of_mem hrising hc, (hlisted c hc).2⟩
  · rintro ⟨hread, hne⟩
    rw [← hread] at hne
    have hmem := Memory.mem_of_read_ne hne
    rwa [hread] at hmem

/-- Settles O12: what the addresses read as fixes which entries there are, and their addresses rise. -/
theorem equalMemoriesAreEqualData : Obligations.EqualMemoriesAreEqualData := by
  intro m m' h h' hread
  have hasymm : Std.Asymm fun c d : Host.Cell => c.1 < d.1 := ⟨fun _ _ => Nat.lt_asymm⟩
  exact h.1.eq_of_mem_iff h'.1 fun c => by rw [Memory.mem_iff_read h, Memory.mem_iff_read h', hread]

end Sys2Proof.Machine
end

section
/-! PROOFS. Memory and the stack: which byte a storing or popping instruction writes or uses, and what the next fetch sees of it. -/

namespace Sys2Proof.Machine

/-- An instruction after which the machine still runs has completed: a fatal condition would have halted it (R156). -/
theorem exec_completes {i : Instr} {s t : State} (h : exec i s = .next t) (hgoes : t.run = .running) :
    fatalOf i s = none ∧ t = completed i s := by
  rcases exec_next_cases h with hc | ⟨f, -, rfl⟩
  · exact hc
  · cases hgoes

/-! ### POP and RET -/

/-- A POP of a register other than 7 leaves in it the byte at the stack pointer (R113). -/
theorem reg_completed_pop {opA : Byte} {a : RegIdx} (ha : opA.toNat = a.val) (h7 : a ≠ 7) (s : State) :
    (completed (.pop opA) s).reg a = Memory.read s.mem s.sp.toNat := by
  rw [completed, operandReg_names ha, State.reg_advance, reg_setSp_ne h7, State.popInto, State.reg_setReg, if_pos rfl]

/-- Settles O47: POP and RET store nothing, and the register or the program counter they write is the byte at the stack pointer. -/
theorem popAndRetLeaveMemory : Obligations.PopAndRetLeaveMemory := by
  intro s t _
  have hpop (opA : Byte) (h : exec (.pop opA) s = .next t) : t.mem = s.mem := exec_mem_of_not_stores h id
  have hret (h : exec .ret s = .next t) : t.mem = s.mem := exec_mem_of_not_stores h id
  refine ⟨fun opA a ha h7 h hgoes => ?_, fun h hgoes => ?_, hpop, hret⟩
  · have hmem := hpop opA h
    have hreg : t.reg a = Memory.read s.mem s.sp.toNat := by
      rw [(exec_completes h hgoes).2, reg_completed_pop ha h7]
    exact ⟨hmem, hreg, by rw [hmem, hreg]⟩
  · have hmem := hret h
    have hpc : t.pc.toNat = (Memory.read s.mem s.sp.toNat).toNat := by
      rw [(exec_completes h hgoes).2]
      exact zext9_toNat _
    exact ⟨hmem, hpc, by rw [hmem, hpc]⟩

/-! ### PUSH and CALL -/

/-- The address below a stack pointer that is not 0, as a number (R110). -/
theorem toNat_sub_one {v : Byte} (h : 0 < v.toNat) : (v - 1).toNat = v.toNat - 1 := BitVec.toNat_sub_of_le h

/-- An instruction that stores has one operand byte, and its opcode is that of PUSH or CALL (R64). -/
theorem stores_opcode {i : Instr} (hi : i.Stores) : (i.opcode = 0x45 ∨ i.opcode = 0x50) ∧ (encode i).length = 2 := by
  cases i with
  | push opA => exact ⟨.inl rfl, rfl⟩
  | call opA => exact ⟨.inr rfl, rfl⟩
  | _ => cases hi

/-- Settles O50: a step that changes a cell runs an instruction that stores, and a store below the stack pointer leaves the rest. -/
theorem memoryChangesOnlyByPushAndCall : Obligations.MemoryChangesOnlyByPushAndCall := by
  intro s t a h hne
  rcases step_next_cases h with rfl | ⟨f, rfl⟩ | ⟨i, hi, he⟩
  · exact absurd rfl hne
  · exact absurd rfl hne
  · rcases exec_mem_cases he with hmem | ⟨hst, hsp, v, hmem⟩ <;> rw [hmem] at hne
    · exact absurd rfl hne
    · obtain ⟨hop, hlen⟩ := stores_opcode hst
      have hfits := fetch_ok_fits (fetch_eq_ok_iff.mpr hi)
      have ha : a = (s.sp - 1).toNat := of_not_not (mt (Memory.read_write_other s.mem _ v a) hne)
      exact ⟨by omega, by rwa [hi.opcode.2], hsp, ha.trans (toNat_sub_one hsp)⟩

/-- A PUSH that completes leaves the register's value, as it then is, below the old stack pointer (R112; D8). -/
theorem read_completed_push {opA : Byte} {a : RegIdx} (ha : opA.toNat = a.val) {s : State} (hsp : 0 < s.sp.toNat) :
    Memory.read (completed (.push opA) s).mem (s.sp.toNat - 1) = (completed (.push opA) s).reg a := by
  rw [← toNat_sub_one hsp]
  simp [completed, operandReg_names ha]

/-- A CALL that completes leaves its return address below the old stack pointer (R124). -/
theorem read_completed_call (opA : Byte) {s : State} (hsp : 0 < s.sp.toNat) :
    Memory.read (completed (.call opA) s).mem (s.sp.toNat - 1) = BitVec.ofNat 8 (s.pc.toNat + 2) := by
  rw [← toNat_sub_one hsp]
  simp [completed]

/-- Settles O59: a fetch reads memory as the instruction left it, so it sees the cell below the old stack pointer with what PUSH or CALL
stored there. -/
theorem storedByteIsFetchedNext : Obligations.StoredByteIsFetchedNext := by
  intro s t opA i hi _ h hgoes
  obtain ⟨hf, rfl⟩ := exec_completes h hgoes
  have hst : i.Stores := by rcases hi with rfl | rfl <;> exact trivial
  have hsp : 0 < s.sp.toNat := decrementFatal_eq_none_iff.mp (decrementFatal_of_stores hst hf)
  refine ⟨Memory.read (completed i s).mem (s.sp.toNat - 1), ?_, ?_, fun k hk haddr => ?_⟩
  · rintro rfl
    exact read_completed_call opA hsp
  · rintro rfl a ha
    exact read_completed_push ha hsp
  · have hlt := s.sp.isLt
    rw [getElem?_bytesAtPc, haddr, if_pos ⟨hk, by omega⟩]

end Sys2Proof.Machine
end

section
/-! PROOFS. The encoding: what decodes, how long it is and what is rejected; then the register operand as a whole byte. -/

namespace Sys2Proof

open Machine

/-! ### Bytes that decode -/

theorem decode_eq_ok_iff {bytes rest : List Byte} {i : Instr} : decode bytes = .ok (i, rest) ↔ bytes = encode i ++ rest := by
  constructor
  · exact decode_ok_encode
  · rintro rfl
    exact decode_encode_append i rest

/-- Settles O2: `decode_eq_ok_iff`, from the cases of the decoder and from the round trip of each instruction. -/
theorem decodeEncodeAgree : Obligations.DecodeEncodeAgree := fun _ _ _ => decode_eq_ok_iff

/-- Settles O1: each word is the encoding of its instruction, followed by the bytes left over. -/
theorem decodeKnownWords : Obligations.DecodeKnownWords := by
  refine ⟨?_, ?_, ?_, ?_, ?_, ?_, ?_, ?_, ?_, ?_, ?_, ?_, ?_, ?_⟩ <;> exact decode_eq_ok_iff.mpr rfl

/-! ### The length of an instruction -/

/-- The two highest bits of a byte, as a number (R62). -/
theorem nops_eq_div (op : Byte) : nops op = op.toNat / 64 := by
  have := op.isLt
  rw [nops, BitVec.extractLsb'_toNat, Nat.shiftRight_eq_div_pow]
  omega

/-- `OperandCount.Statement` holds of every instruction. -/
theorem operandCount (i : Instr) : Laws.OperandCount.Statement i := by
  cases i with
  | nop => exact Laws.OperandCount.nop
  | hlt => exact Laws.OperandCount.hlt
  | ret => exact Laws.OperandCount.ret
  | push opA => exact Laws.OperandCount.push opA
  | pop opA => exact Laws.OperandCount.pop opA
  | prn opA => exact Laws.OperandCount.prn opA
  | call opA => exact Laws.OperandCount.call opA
  | jmp opA => exact Laws.OperandCount.jmp opA
  | jeq opA => exact Laws.OperandCount.jeq opA
  | jne opA => exact Laws.OperandCount.jne opA
  | ldi opA imm => exact Laws.OperandCount.ldi opA imm
  | add opA opB => exact Laws.OperandCount.add opA opB
  | mul opA opB => exact Laws.OperandCount.mul opA opB
  | cmp opA opB => exact Laws.OperandCount.cmp opA opB

theorem length_encode (i : Instr) : (encode i).length = i.opcode.toNat / 64 + 1 := by
  obtain ⟨-, hcount⟩ := operandCount i
  rw [encode, List.length_cons, hcount, nops_eq_div]

/-- Settles O5: what decodes begins with the encoding of its instruction, whose first byte counts the operand bytes. -/
theorem lengthFromTheTwoHighestBits : Obligations.LengthFromTheTwoHighestBits := by
  intro op more i rest h
  have hbytes : op :: more = encode i ++ rest := decode_ok_encode h
  obtain ⟨rfl, -⟩ := List.cons.inj hbytes
  exact ⟨by rw [hbytes, List.length_append, length_encode], length_encode i⟩

/-! ### Opcodes that are rejected -/

/-- A rejected opcode is one without an entry in the dispatch table, whatever follows it (R84). -/
theorem decode_eq_illegalOpcode_iff {op : Byte} {rest : List Byte} :
    decode (op :: rest) = .error (.illegalOpcode op) ↔ dispatch op = none := by
  constructor
  · intro h
    rcases decode_cases (op :: rest) with ⟨_, _, hd, -⟩ | ⟨_, _, hd, -, hnone⟩ | ⟨hd, -⟩
    · cases h.symm.trans hd
    · cases h.symm.trans hd
      exact hnone
    · cases h.symm.trans hd
  · intro hnone
    simp only [decode, hnone]

/-- The dispatch table has no entry but those of the defined values (R64). -/
theorem mem_definedOpcodes_of_dispatch_some {op : Byte} {fmt : Format} (h : dispatch op = some fmt) : op ∈ definedOpcodes := by
  unfold dispatch at h
  split at h <;> cases h <;> decide

theorem dispatch_eq_none_iff {op : Byte} : dispatch op = none ↔ op ∉ definedOpcodes := by
  constructor
  · exact not_mem_definedOpcodes_of_dispatch_none
  · intro hop
    exact Option.eq_none_iff_forall_ne_some.mpr fun _ h => hop (mem_definedOpcodes_of_dispatch_some h)

/-- The undefined values are the 256 of a byte without the 14 defined ones (R70). -/
theorem length_filter_isNone_dispatch : ((List.range 256).filter fun n => (dispatch (BitVec.ofNat 8 n)).isNone).length = 242 := by
  have hfilter : (Finset.range 256).filter (fun n => (dispatch (BitVec.ofNat 8 n)).isNone) =
      Finset.range 256 \ (definedOpcodes.map BitVec.toNat).toFinset := by
    ext n
    rw [Finset.mem_filter, Finset.mem_sdiff, Option.isNone_iff_eq_none, dispatch_eq_none_iff, List.mem_toFinset, List.mem_map]
    refine and_congr_right fun hn => not_congr ⟨fun hop => ⟨_, hop, ?_⟩, ?_⟩
    · rw [BitVec.toNat_ofNat, Nat.mod_eq_of_lt (Finset.mem_range.mp hn)]
    · rintro ⟨op, hop, rfl⟩
      rwa [BitVec.ofNat_toNat, BitVec.setWidth_eq]
  have hsub : (definedOpcodes.map BitVec.toNat).toFinset ⊆ Finset.range 256 := by decide
  have hcard : (definedOpcodes.map BitVec.toNat).toFinset.card = 14 := by decide
  rw [← List.toFinset_card_of_nodup (List.nodup_range.filter _), List.toFinset_filter, List.toFinset_range, hfilter,
    Finset.card_sdiff_of_subset hsub, Finset.card_range, hcard]

/-- Settles O3: the rejected opcodes are those outside the list of defined ones, and the listed ranges are what lies between them. -/
theorem illegalOpcodesAreTheListedRanges : Obligations.IllegalOpcodesAreTheListedRanges := by
  refine ⟨fun op rest => ?_, length_filter_isNone_dispatch⟩
  have hbyte := op.isLt
  rw [decode_eq_illegalOpcode_iff, dispatch_eq_none_iff]
  simp only [definedOpcodes, List.mem_cons, List.not_mem_nil, or_false, BitVec.ofNat_eq_ofNat, ← BitVec.toNat_inj,
    BitVec.toNat_ofNat]
  omega

/-! ### Bytes that end too early -/

/-- Bytes found too short can be completed to an encoding: with two more bytes after its opcode no instruction misses any (R60). -/
theorem exists_encode_of_decode_short {bytes : List Byte} {n : Nat} (h : decode bytes = .error (.endOfBytes n)) :
    ∃ i more, more ≠ [] ∧ encode i = bytes ++ more := by
  cases bytes with
  | nil => exact ⟨.nop, [0x00], by decide, rfl⟩
  | cons op operands =>
    rcases decode_cases (op :: operands ++ [0x00, 0x00]) with ⟨i, rest, -, henc⟩ | ⟨_, _, -, hop, hnone⟩ | ⟨-, hlt⟩
    · rcases List.append_eq_append_iff.mp henc with ⟨more, hmore, -⟩ | ⟨after, hafter, -⟩
      · refine ⟨i, more, ?_, hmore⟩
        rintro rfl
        have hwhole : op :: operands = encode i ++ [] := by rw [hmore, List.append_nil, List.append_nil]
        cases h.symm.trans (decode_eq_ok_iff.mpr hwhole)
      · cases h.symm.trans (decode_eq_ok_iff.mpr hafter)
    · obtain ⟨rfl, -⟩ := List.cons.inj hop
      cases h.symm.trans (decode_eq_illegalOpcode_iff.mpr hnone)
    · simp only [Config.maxLength, List.length_append, List.length_cons, List.length_nil] at hlt
      omega

/-- A proper beginning of an encoding misses the byte right after it: no shorter encoding stands at its front, and its opcode is
defined. -/
theorem decode_proper_prefix {bytes more : List Byte} {i : Instr} (hmore : more ≠ []) (henc : encode i = bytes ++ more) :
    decode bytes = .error (.endOfBytes bytes.length) := by
  have hi : decode (bytes ++ more) = .ok (i, []) := decode_eq_ok_iff.mpr (by rw [henc, List.append_nil])
  rcases decode_cases bytes with ⟨j, rest, -, hbytes⟩ | ⟨op, rest, -, rfl, hnone⟩ | ⟨hd, -⟩
  · have hj : decode (bytes ++ more) = .ok (j, rest ++ more) := decode_eq_ok_iff.mpr (by rw [hbytes, List.append_assoc])
    obtain ⟨-, hnil⟩ := Prod.mk.inj (Except.ok.inj (hj.symm.trans hi))
    exact absurd (List.append_eq_nil_iff.mp hnil).2 hmore
  · cases hi.symm.trans (decode_eq_illegalOpcode_iff.mpr hnone)
  · exact hd

/-- Settles O4: `exists_encode_of_decode_short` one way, `decode_proper_prefix` the other and for the offset. -/
theorem shortBytesAreRejected : Obligations.ShortBytesAreRejected := by
  intro bytes n
  constructor
  · intro h
    obtain ⟨i, more, hmore, henc⟩ := exists_encode_of_decode_short h
    cases h.symm.trans (decode_proper_prefix hmore henc)
    exact ⟨rfl, i, more, hmore, henc⟩
  · rintro ⟨rfl, i, more, hmore, henc⟩
    exact decode_proper_prefix hmore henc

namespace Machine

/-! ### Register operands -/

theorem regidx_eq_ok_iff {b : Byte} {a : RegIdx} : regidx b = .ok a ↔ b.toNat = a.val := by
  constructor
  · intro h
    rcases regidx_cases b with ⟨i, hi, hb⟩ | ⟨-, hb⟩
    · cases h.symm.trans hb
      exact hi
    · cases h.symm.trans hb
  · exact regidx_names

theorem regidx_eq_error_iff {b : Byte} : regidx b = .error (.invalidRegister b) ↔ 8 ≤ b.toNat := by
  constructor
  · intro h
    rcases regidx_cases b with ⟨i, -, hb⟩ | ⟨h8, -⟩
    · cases h.symm.trans hb
    · exact h8
  · exact regidx_bad

theorem exec_jmp_names {b : Byte} {a : RegIdx} (ha : b.toNat = a.val) (s : State) :
    exec (.jmp b) s = .next (s.jump (s.reg a)) := by
  rcases exec_jmp_cases b s with ⟨i, hi, he⟩ | ⟨h8, -⟩
  · rwa [← Fin.ext (hi.symm.trans ha)]
  · omega

theorem exec_jmp_bad {b : Byte} (h8 : 8 ≤ b.toNat) (s : State) :
    exec (.jmp b) s = .next (raise (.invalidRegister b) s) := by
  rcases exec_jmp_cases b s with ⟨i, hi, -⟩ | ⟨-, he⟩
  · omega
  · exact he

/-- Settles O11: `regidx` answers one of two ways, told apart by the byte as a number, and JMP shows what each comes to. -/
theorem registerOperandIsTheWholeByte : Obligations.RegisterOperandIsTheWholeByte := by
  refine ⟨fun _ _ => regidx_eq_ok_iff, fun _ => regidx_eq_error_iff, fun s b a ha => ?_, fun s b h8 => ?_⟩
  · exact ⟨_, exec_jmp_names ha s, zext9_toNat (s.reg a)⟩
  · exact ⟨_, exec_jmp_bad h8 s, rfl, rfl, rfl⟩

end Machine

end Sys2Proof
end

section
/-! PROOFS. The execution loop: a fetch told from what decodes at the program counter, the conditions a fetch and a register operand
raise, and a machine that has stopped. -/

namespace Sys2Proof.Machine

/-! ### A fetch, from what decodes -/

section

variable {s : State}

theorem fetch_of_runaway (hpc : 255 < s.pc.toNat) : fetch s = .error (.runawayProgram s.pc) := if_pos hpc

theorem fetch_of_decode_ok {i : Instr} {rest : List Byte} (hpc : s.pc.toNat ≤ 255) (hd : decode (bytesAtPc s) = .ok (i, rest)) :
    fetch s = .ok i := by
  rw [fetch, if_neg hpc.not_gt, hd]

theorem fetch_of_decode_error {e : DecodeError} (hpc : s.pc.toNat ≤ 255) (hd : decode (bytesAtPc s) = .error e) :
    fetch s = .error (fetchFatal s e) := by
  rw [fetch, if_neg hpc.not_gt, hd]

/-- Inside memory the first byte of a fetch is the cell at the program counter (R83). -/
theorem bytesAtPc_eq_cons (hpc : s.pc.toNat ≤ 255) :
    bytesAtPc s = Memory.read s.mem s.pc.toNat :: fetchBytes s 2 (s.pc.toNat + 1) := by
  have hin := memRead_inside (addr := s.pc.toNat) s (by omega) (by omega)
  rw [bytesAtPc, Config.maxLength, fetchBytes, hin, Int.toNat_natCast]

end

/-- The next byte of a fetch is what MemRead gives, and the bytes end where MemRead raises (R44, R85). -/
theorem fetchBytes_succ_cases (s : State) (n : Nat) (addr : Int) :
    (∃ v, memRead addr s = .ok v ∧ fetchBytes s (n + 1) addr = v :: fetchBytes s n (addr + 1)) ∨
    (memRead addr s = .error (.outOfBounds addr) ∧ fetchBytes s (n + 1) addr = []) := by
  by_cases hout : addr < 0 ∨ 255 < addr
  · have hread := memRead_outside s hout
    exact .inr ⟨hread, by rw [fetchBytes, hread]⟩
  · have hread := memRead_inside (addr := addr) s (by omega) (by omega)
    exact .inl ⟨_, hread, by rw [fetchBytes, hread]⟩

/-- Settles O8: inside memory the opcode byte is read, and each format takes the operand bytes that MemRead gives, up to the first one it
raises at. -/
theorem fetchFollowsTheStepParts : Obligations.FetchFollowsTheStepParts := by
  intro s
  rcases Nat.lt_or_ge 255 s.pc.toNat with hpc | hpc
  · rw [fetch_of_runaway hpc, if_pos hpc]
  · have hop := memRead_inside (addr := s.pc.toNat) s (by omega) (by omega)
    rw [if_neg hpc.not_gt, hop, ok_bind, Int.toNat_natCast, fetch, if_neg hpc.not_gt, bytesAtPc_eq_cons hpc, decode]
    cases dispatch (Memory.read s.mem s.pc.toNat) with
    | none => rfl
    | some fmt =>
      cases fmt with
      | f0 i => rfl
      | f1 mk =>
        rcases fetchBytes_succ_cases s 1 (s.pc.toNat + 1) with ⟨a, ha, hbytes⟩ | ⟨ha, hbytes⟩ <;>
          simp [hbytes, ha, fetchFatal]
      | f2 mk =>
        have htwo : (s.pc.toNat : Int) + 1 + 1 = s.pc.toNat + 2 := add_assoc _ 1 1
        rcases fetchBytes_succ_cases s 1 (s.pc.toNat + 1) with ⟨a, ha, hbytes⟩ | ⟨ha, hbytes⟩
        · rcases fetchBytes_succ_cases s 0 (s.pc.toNat + 2) with ⟨b, hb, hlast⟩ | ⟨hb, hlast⟩ <;>
            simp [hbytes, htwo, hlast, ha, hb, fetchFatal]
        · simp [hbytes, ha, fetchFatal]

/-! ### A step that runs what stands at the program counter -/

/-- Settles O6: what decodes is what the fetch answers. -/
theorem stepRunsDecoded : Obligations.StepRunsDecoded :=
  fun _ _ _ hrun hpc hd => step_of_fetch_ok hrun (fetch_of_decode_ok hpc hd)

/-- Settles O7: a fetch finds the instruction whose bytes stand at the program counter. -/
theorem stepRunsTheEncodedInstruction : Obligations.StepRunsTheEncodedInstruction :=
  fun _ _ hrun hi => step_of_fetch_ok hrun (fetch_eq_ok_iff.mpr hi)

/-! ### A fetch that raises -/

/-- Settles O29: the fetch raises at its first check. -/
theorem runawayProgramStops : Obligations.RunawayProgramStops :=
  fun _ hrun hpc => step_of_fetch_error hrun (fetch_of_runaway hpc)

/-- Settles O30: the first byte of the fetch is rejected whatever bytes follow it. -/
theorem illegalInstructionStops : Obligations.IllegalInstructionStops := by
  intro s hrun hpc hop
  have hd : decode (bytesAtPc s) = .error (.illegalOpcode (Memory.read s.mem s.pc.toNat)) := by
    rw [bytesAtPc_eq_cons hpc]
    exact decode_eq_illegalOpcode_iff.mpr (dispatch_eq_none_iff.mpr hop)
  exact step_of_fetch_error hrun (fetch_of_decode_error hpc hd)

/-- Inside memory a defined opcode whose operand bytes reach beyond address 255 is reported as an access to 256 (R85). -/
theorem fetch_of_missing_operand {s : State} (hpc : s.pc.toNat ≤ 255) (hop : Memory.read s.mem s.pc.toNat ∈ definedOpcodes)
    (hlong : 255 < s.pc.toNat + (Memory.read s.mem s.pc.toNat).toNat / 64) : fetch s = .error (.outOfBounds 256) := by
  rcases decode_cases (bytesAtPc s) with ⟨i, _, hd, -⟩ | ⟨op, _, -, hbytes, hnone⟩ | ⟨hd, hlt⟩
  · have hf := fetch_of_decode_ok hpc hd
    have hfits := fetch_ok_fits hf
    rw [length_encode, ← (fetch_eq_ok_iff.mp hf).opcode.2] at hfits
    omega
  · obtain ⟨rfl, -⟩ := List.cons.inj ((bytesAtPc_eq_cons hpc).symm.trans hbytes)
    exact absurd hop (dispatch_eq_none_iff.mp hnone)
  · have hlen := length_bytesAtPc hpc
    simp only [Config.maxLength] at hlt
    rw [fetch_of_decode_error hpc hd, fetchFatal]
    congr 2
    omega

/-- Settles O31: what stands there is no whole instruction and its opcode is not rejected, so its bytes end at address 255. -/
theorem missingOperandByteStops : Obligations.MissingOperandByteStops :=
  fun _ hrun hpc hop hlong => step_of_fetch_error hrun (fetch_of_missing_operand hpc hop hlong)

/-! ### A register operand that names none -/

theorem exec_of_fatal {i : Instr} {s : State} {f : Fatal} (hf : fatalOf i s = some f) : exec i s = .next (raise f s) := by
  rw [exec_eq_execNext, execNext_of_some hf]

/-- Settles O27: the operands come first in `fatalOf`, and the first operand before the second. -/
theorem invalidRegisterOperandStops : Obligations.InvalidRegisterOperandStops := by
  refine fun s opA opB => ⟨fun hA i hi => ?_, fun hA hB i hi => ?_⟩
  · have hf : fatalOf i s = some (.invalidRegister opA) := by
      fin_cases hi <;> simp [fatalOf, invalidOperand_bad hA]
    exact exec_of_fatal hf
  · have hf : fatalOf i s = some (.invalidRegister opB) := by
      fin_cases hi <;> simp [fatalOf, invalidOperand_lt (Nat.lt_succ_of_le hA), invalidOperand_bad hB]
    exact exec_of_fatal hf

/-! ### A machine that has stopped -/

/-- Settles O34: induction on the number of steps, each of which answers the state it began in. -/
theorem haltedIsAbsorbing : Obligations.HaltedIsAbsorbing := by
  intro n s hrun
  induction n with
  | zero => rfl
  | succ n ih =>
    rw [run_succ (M := core) (step_of_halted hrun)]
    exact ih

end Sys2Proof.Machine
end

section
/-! PROOFS. The ALU instructions ADD, MUL and CMP: what they share as instructions of two register operands, then the effect of each. -/

namespace Sys2Proof.Machine

/-! ### Instructions of two register operands -/

section

variable {i : Instr} {s : State} {opA opB : Byte}

/-- Where both operands name registers such an instruction completes (R100). -/
theorem exec_of_two_registers (hf : fatalOf i s = (invalidOperand opA).or (invalidOperand opB)) {a b : RegIdx}
    (ha : opA.toNat = a.val) (hb : opB.toNat = b.val) : exec i s = .next (completed i s) := by
  rw [invalidOperand_names ha, invalidOperand_names hb, Option.none_or] at hf
  rw [exec_eq_execNext, execNext_of_none hf]

/-- Where one of the operands names no register, whichever it is, the machine stops with InvalidRegister (R86, R100). -/
theorem stopsWith_of_bad_operand (hf : fatalOf i s = (invalidOperand opA).or (invalidOperand opB))
    (hbad : 7 < opA.toNat ∨ 7 < opB.toNat) : ∃ n, StopsWith (exec i s) .invalidRegister n := by
  rcases Nat.lt_or_ge opA.toNat 8 with hA | hA
  · rw [invalidOperand_lt hA, invalidOperand_bad (hbad.resolve_left (by omega)), Option.none_or] at hf
    exact ⟨_, _, exec_of_fatal hf, rfl, rfl, rfl⟩
  · rw [invalidOperand_bad hA, Option.some_or] at hf
    exact ⟨_, _, exec_of_fatal hf, rfl, rfl, rfl⟩

/-- An opcode of two operand bytes at address 254 or 255 is an access to 256, whatever its operands are (R85, R100; before an operand is
validated by the spec's decision D5). -/
theorem stopsWith_of_two_operand_bytes_missing {op : Byte} (hdef : op ∈ definedOpcodes) (htwo : op.toNat / 64 = 2)
    (hrun : s.run = .running) (hpc : s.pc.toNat = 254 ∨ s.pc.toNat = 255) (hop : Memory.read s.mem s.pc.toNat = op) :
    StopsWith (step s) .outOfBounds (.int 256) := by
  subst hop
  exact ⟨_, missingOperandByteStops s hrun (by omega) hdef (by omega), rfl, rfl, rfl⟩

end

/-- The conditions that instructions of two register operands can raise, and their encoding (R61, R100). -/
theorem two_register_conditions (mk : Byte → Byte → Instr) {op : Byte}
    (hf : ∀ s opA opB, fatalOf (mk opA opB) s = (invalidOperand opA).or (invalidOperand opB))
    (henc : ∀ opA opB, encode (mk opA opB) = [op, opA, opB]) (hdef : op ∈ definedOpcodes) (htwo : op.toNat / 64 = 2) :
    (∀ (s : State) (opA opB : Byte), 7 < opA.toNat ∨ 7 < opB.toNat →
      ∃ n, StopsWith (exec (mk opA opB) s) .invalidRegister n) ∧
    (∀ s : State, s.run = .running → s.pc.toNat = 254 ∨ s.pc.toNat = 255 → Memory.read s.mem s.pc.toNat = op →
      StopsWith (step s) .outOfBounds (.int 256)) ∧
    (∀ opA opB : Byte, decode [op, opA, opB] = .ok (mk opA opB, [])) :=
  ⟨fun s opA opB => stopsWith_of_bad_operand (hf s opA opB), fun _ => stopsWith_of_two_operand_bytes_missing hdef htwo,
    fun opA opB => decode_eq_ok_iff.mpr (by rw [henc, List.append_nil])⟩

/-! ### The effect of each, where both operands name registers -/

section

variable {opA opB : Byte} {a b : RegIdx} (ha : opA.toNat = a.val) (hb : opB.toNat = b.val) (s : State)

include ha hb

theorem exec_add_names : exec (.add opA opB) s = .next ((s.setReg a (aluAdd (s.reg a) (s.reg b))).advance 3) := by
  rw [exec_of_two_registers rfl ha hb, completed, operandReg_names ha, operandReg_names hb]

theorem exec_mul_names : exec (.mul opA opB) s = .next ((s.setReg a (aluMul (s.reg a) (s.reg b))).advance 3) := by
  rw [exec_of_two_registers rfl ha hb, completed, operandReg_names ha, operandReg_names hb]

theorem exec_cmp_names : exec (.cmp opA opB) s = .next ((s.setFl (compareFlags (s.reg a) (s.reg b))).advance 3) := by
  rw [exec_of_two_registers rfl ha hb, completed, operandReg_names ha, operandReg_names hb]

end

/-! ### Arithmetic -/

/-- A value narrowed to a byte is the one modulo 256 (R90). -/
theorem ofNat_eight_mod (n : Nat) : BitVec.ofNat 8 (n % 256) = BitVec.ofNat 8 n :=
  BitVec.eq_of_toNat_eq (Nat.mod_mod n 256)

/-- Settles O15: ADD completes with `aluAdd` of the two registers, which narrows their sum. -/
theorem addWrapsModulo256 : Obligations.AddWrapsModulo256 := by
  refine ⟨fun s opA opB a b ha hb => ?_, two_register_conditions .add (fun _ _ _ => rfl) (fun _ _ => rfl) (by decide) (by decide)⟩
  rw [exec_add_names ha hb, ofNat_eight_mod]
  rfl

/-- Settles O16: MUL completes with `aluMul` of the two registers, which narrows their product. -/
theorem mulKeepsTheLowByte : Obligations.MulKeepsTheLowByte := by
  refine ⟨fun s opA opB a b ha hb => ?_, two_register_conditions .mul (fun _ _ _ => rfl) (fun _ _ => rfl) (by decide) (by decide)⟩
  rw [exec_mul_names ha hb, ofNat_eight_mod]
  rfl

/-! ### Comparison -/

/-- Each flag of a comparison says its own relation, and bits 7 to 3 are 0 (R27, R103). -/
theorem compareFlags_bits (p q : Byte) :
    ((compareFlags p q).getLsbD 0 = true ↔ p.toNat = q.toNat) ∧ ((compareFlags p q).getLsbD 2 = true ↔ p.toNat < q.toNat) ∧
    ((compareFlags p q).getLsbD 1 = true ↔ q.toNat < p.toNat) ∧ (compareFlags p q).toNat < 8 := by
  rcases compareFlags_cases p q with ⟨heq, hv⟩ | ⟨hlt, hv⟩ | ⟨hgt, hv⟩
  · simp [hv, heq]
  · simp [hv, hlt, hlt.ne, hlt.le]
  · simp [hv, hgt, hgt.ne', hgt.le]

/-- Settles O17: CMP completes with `compareFlags` of the two registers, whose bits are `compareFlags_bits`; that no other instruction
changes FL is the frame `exec_fl_of_ne_cmp`. -/
theorem cmpSetsExactlyOneFlag : Obligations.CmpSetsExactlyOneFlag := by
  refine ⟨fun s _ _ _ _ ha hb => exec_cmp_names ha hb s, fun s t _ _ a b ha hb h => ?_,
    fun _ _ _ hi h => exec_fl_of_ne_cmp h hi,
    two_register_conditions .cmp (fun _ _ _ => rfl) (fun _ _ => rfl) (by decide) (by decide)⟩
  cases (exec_cmp_names ha hb s).symm.trans h
  exact compareFlags_bits (s.reg a) (s.reg b)

end Sys2Proof.Machine
end

section
/-! PROOFS. The stack instructions: the limits of the stack pointer and of the return address, the whole next state of PUSH and POP, and
PUSH followed by POP. -/

namespace Sys2Proof.Machine

/-! ### Limits -/

theorem decrementFatal_zero {sp : Byte} (h : sp.toNat = 0) : decrementFatal sp = some (.outOfBounds (-1)) := if_pos h

theorem incrementFatal_max {sp : Byte} (h : sp.toNat = 255) : incrementFatal sp = some (.outOfBounds 256) := if_pos h

theorem incrementFatal_lt {sp : Byte} (h : sp.toNat < 255) : incrementFatal sp = none := if_neg h.ne

theorem returnFatal_max {pc : Pc} (h : 254 ≤ pc.toNat) : returnFatal pc = some (.outOfBounds 256) := if_pos h

/-- The stack pointer that POP increments: for register 7 the byte just loaded (the spec's decision D8), else the old one (R113). -/
theorem sp_popInto (s : State) (a : RegIdx) : (s.popInto a).sp = if a = 7 then Memory.read s.mem s.sp.toNat else s.sp :=
  State.sp_setReg s a _

theorem fatalOf_pop {opA : Byte} {a : RegIdx} (ha : opA.toNat = a.val) (s : State) :
    fatalOf (.pop opA) s = incrementFatal (if a = 7 then Memory.read s.mem s.sp.toNat else s.sp) := by
  rw [fatalOf, invalidOperand_names ha, Option.none_or, operandReg_names ha, sp_popInto]

/-- Settles O28: each clause is the first condition of `fatalOf` that applies, once the operand is known to name a register. -/
theorem stackLimitsStop : Obligations.StackLimitsStop := by
  refine ⟨fun s opA hA hsp => ⟨?push, ?callStack⟩, fun s opA hA hsp hpc => ?callReturn, fun s opA hA hsp => ?pop,
    fun s opA hA htop => ?popSp, fun s hsp => ?ret⟩
  case push =>
    have hf : fatalOf (.push opA) s = some (.outOfBounds (-1)) := by
      simp [fatalOf, invalidOperand_lt (Nat.lt_succ_of_le hA), decrementFatal_zero hsp]
    exact exec_of_fatal hf
  case callStack =>
    have hf : fatalOf (.call opA) s = some (.outOfBounds (-1)) := by
      simp [fatalOf, invalidOperand_lt (Nat.lt_succ_of_le hA), decrementFatal_zero hsp]
    exact exec_of_fatal hf
  case callReturn =>
    have hf : fatalOf (.call opA) s = some (.outOfBounds 256) := by
      simp [fatalOf, invalidOperand_lt (Nat.lt_succ_of_le hA), decrementFatal_eq_none_iff.mpr hsp, returnFatal_max hpc.ge]
    exact exec_of_fatal hf
  case pop =>
    have hf : fatalOf (.pop opA) s = some (.outOfBounds 256) := by
      rw [fatalOf_pop (a := ⟨opA.toNat, by omega⟩) rfl, if_neg (Fin.ne_of_val_ne hA.ne), incrementFatal_max hsp]
    exact exec_of_fatal hf
  case popSp =>
    have hf : fatalOf (.pop opA) s = some (.outOfBounds 256) := by
      rw [fatalOf_pop (a := 7) hA, if_pos rfl, incrementFatal_max htop]
    exact exec_of_fatal hf
  case ret =>
    have hf : fatalOf .ret s = some (.outOfBounds 256) := incrementFatal_max hsp
    exact exec_of_fatal hf

/-! ### The last cell -/

/-- Settles O51: a step changes only the cell one below a stack pointer, and a stack pointer is at most 255. -/
theorem theLastCellIsNeverWritten : Obligations.TheLastCellIsNeverWritten := by
  intro s t h
  by_contra hne
  obtain ⟨-, -, hsp, haddr⟩ := memoryChangesOnlyByPushAndCall s t 255 h hne
  have hlt := s.sp.isLt
  omega

/-! ### PUSH and POP where they complete -/

/-- Of two writes of register 7 the second stays. -/
theorem setSp_setReg_sp (s : State) (v w : Byte) : (s.setReg 7 v).setSp w = s.setSp w :=
  congrArg (fun r => { s with regs := r }) (Vector.set_set ..)

theorem exec_of_no_fatal {i : Instr} {s : State} (hf : fatalOf i s = none) : exec i s = .next (completed i s) := by
  rw [exec_eq_execNext, execNext_of_none hf]

section

variable {opA : Byte} {a : RegIdx} (ha : opA.toNat = a.val) {s : State}

include ha

theorem exec_push_names (hsp : 0 < s.sp.toNat) :
    exec (.push opA) s = .next
      (((s.setSp (s.sp - 1)).setMem (Memory.write s.mem (s.sp - 1).toNat ((s.setSp (s.sp - 1)).reg a))).advance 2) := by
  have hf : fatalOf (.push opA) s = none :=
    Option.or_eq_none_iff.mpr ⟨invalidOperand_names ha, decrementFatal_eq_none_iff.mpr hsp⟩
  rw [exec_of_no_fatal hf, completed, operandReg_names ha, State.sp_setSp]

theorem exec_pop_names (hsp : (s.popInto a).sp.toNat < 255) :
    exec (.pop opA) s = .next (((s.popInto a).setSp ((s.popInto a).sp + 1)).advance 2) := by
  have hf : fatalOf (.pop opA) s = none := by rw [fatalOf_pop ha, ← sp_popInto, incrementFatal_lt hsp]
  rw [exec_of_no_fatal hf, completed, operandReg_names ha]

end

/-- Settles O23: PUSH completes with one memory write, at the decremented stack pointer. -/
theorem pushStoresBelowTheStackPointer : Obligations.PushStoresBelowTheStackPointer := by
  intro s opA a ha hsp
  refine ⟨_, exec_push_names ha hsp, fun addr => ?_⟩
  rw [State.setMem_mem, Memory.read_write, toNat_sub_one hsp, State.reg_setSp]
  simp only [Config.sp, eq_comm]

/-- Settles O24: POP completes with the register loaded first and the stack pointer as it then stands incremented, which for register 7
writes register 7 twice. -/
theorem popLoadsAndIncrements : Obligations.PopLoadsAndIncrements := by
  refine ⟨fun s opA a ha h7 hsp => ?_, fun s opA h7 htop => ?_⟩
  · have hsame : (s.popInto a).sp = s.sp := (sp_popInto s a).trans (if_neg h7)
    rw [exec_pop_names ha (by rwa [hsame]), hsame]
    rfl
  · have hloaded : (s.popInto 7).sp = Memory.read s.mem s.sp.toNat := sp_popInto s 7
    rw [exec_pop_names (a := 7) h7 (by rwa [hloaded]), hloaded, State.popInto, setSp_setReg_sp]
    rfl

/-! ### PUSH, then POP -/

/-- Moving the stack pointer, loading another register with the value it has, and moving the stack pointer back changes no register. -/
theorem regs_restored (s : State) {a : RegIdx} (h7 : a ≠ 7) (v : Byte) :
    ((s.regs.set 7 v).set a (s.reg a)).set 7 s.sp = s.regs := by
  have hne : 7 ≠ a.val := Fin.val_ne_of_ne h7.symm
  calc ((s.regs.set 7 v).set a (s.reg a)).set 7 s.sp
    _ = ((s.regs.set a (s.reg a)).set 7 v).set 7 s.sp := by rw [Vector.set_comm v _ hne]
    _ = (s.regs.set a s.regs[a.val]).set 7 s.regs[7] := Vector.set_set ..
    _ = s.regs := by rw [Vector.set_getElem_self, Vector.set_getElem_self]

/-- Settles O57: by O23 the cell at the new stack pointer holds the register's value, and by O24 POP loads that cell and moves the stack
pointer back. -/
theorem pushThenPopRoundTrips : Obligations.PushThenPopRoundTrips := by
  intro s opA a ha h7 hsp
  obtain ⟨m, hpush, hm⟩ := pushStoresBelowTheStackPointer s opA a ha hsp
  simp only [if_neg h7] at hm
  set t : State := { s with regs := s.regs.set 7 (s.sp - 1), mem := m, pc := s.pc + 2 } with ht
  have hlow : t.sp = s.sp - 1 := State.sp_setSp s (s.sp - 1)
  have haddr : t.sp.toNat = s.sp.toNat - 1 := by rw [hlow, toNat_sub_one hsp]
  have htop : Memory.read t.mem t.sp.toNat = s.reg a := by rw [haddr, hm, if_pos rfl]
  have hback : t.sp + 1 = s.sp := by rw [hlow, BitVec.sub_add_cancel]
  have hpc : s.pc + 2 + 2 = s.pc + 4 := BitVec.add_assoc ..
  have hlt := s.sp.isLt
  refine ⟨t, m, hpush, ?_, hm⟩
  rw [popLoadsAndIncrements.1 t opA a ha h7 (by omega), htop, hback]
  simp only [ht, regs_restored s h7, hpc]

end Sys2Proof.Machine
end

section
/-! PROOFS. The control transfers: JMP, JEQ and JNE by their one register operand, the whole next state of CALL and RET, and CALL followed
by RET. -/

namespace Sys2Proof.Machine

/-! ### Jumps to a register's value -/

/-- Settles O19: JMP is `State.jump` to the register its operand names; its operand is at 256 where its opcode stands at 255. -/
theorem jmpGoesToTheRegister : Obligations.JmpGoesToTheRegister := by
  refine ⟨fun s _ _ ha => exec_jmp_names ha s, fun s _ hbad => ⟨_, exec_jmp_bad hbad s, rfl, rfl, rfl⟩,
    fun s hrun hpc hlast => ?_, fun opA => decode_encode_append (.jmp opA) []⟩
  have hop : Memory.read s.mem s.pc.toNat = 0x54 := by rw [hpc, hlast]
  have hdef : Memory.read s.mem s.pc.toNat ∈ definedOpcodes := by
    rw [hop]
    decide
  have hlong : 255 < s.pc.toNat + (Memory.read s.mem s.pc.toNat).toNat / 64 := by
    rw [hop, hpc]
    decide
  exact ⟨_, missingOperandByteStops s hrun hpc.le hdef hlong, rfl, rfl, rfl⟩

/-- An instruction whose only condition is that of its register operand completes where the operand names a register. -/
theorem exec_of_one_register {i : Instr} {s : State} {opA : Byte} (hf : fatalOf i s = invalidOperand opA) {a : RegIdx}
    (ha : opA.toNat = a.val) : exec i s = .next (completed i s) :=
  exec_of_no_fatal (hf.trans (invalidOperand_names ha))

section

variable {opA : Byte} {a : RegIdx} (ha : opA.toNat = a.val) (s : State)

include ha

theorem exec_jeq_names : exec (.jeq opA) s = .next (s.setPc (if s.flagE then zext9 (s.reg a) else s.pc + 2)) := by
  rw [exec_of_one_register rfl ha, completed, operandReg_names ha]

theorem exec_jne_names : exec (.jne opA) s = .next (s.setPc (if s.flagE then s.pc + 2 else zext9 (s.reg a))) := by
  rw [exec_of_one_register rfl ha, completed, operandReg_names ha]

end

/-- Settles O20: where its operand names a register JEQ completes, and E decides the program counter. -/
theorem jeqJumpsOnEqual : Obligations.JeqJumpsOnEqual := fun s _ _ ha => exec_jeq_names ha s

/-- Settles O21: JNE completes as JEQ does, with the two program counters exchanged. -/
theorem jneJumpsOnNotEqual : Obligations.JneJumpsOnNotEqual := by
  intro s opA a ha
  have hE : s.flagE = s.fl.getLsbD 0 := rfl
  rw [exec_jne_names ha, hE]
  cases s.fl.getLsbD 0 <;> rfl

/-! ### CALL and RET where they complete -/

theorem returnFatal_le {pc : Pc} (h : pc.toNat ≤ 253) : returnFatal pc = none := if_neg (by omega)

theorem exec_call_names {opA : Byte} {a : RegIdx} (ha : opA.toNat = a.val) {s : State} (hsp : 0 < s.sp.toNat)
    (hpc : s.pc.toNat ≤ 253) :
    exec (.call opA) s = .next
      (((s.setSp (s.sp - 1)).setMem (Memory.write s.mem (s.sp - 1).toNat (BitVec.ofNat 8 (s.pc.toNat + 2)))).jump
        ((s.setSp (s.sp - 1)).reg a)) := by
  have hf : fatalOf (.call opA) s = none := by
    rw [fatalOf, invalidOperand_names ha, decrementFatal_eq_none_iff.mpr hsp, returnFatal_le hpc, Option.none_or,
      Option.none_or]
  rw [exec_of_no_fatal hf, completed, operandReg_names ha, State.sp_setSp]

/-- Settles O25: CALL completes with one memory write, at the decremented stack pointer, and then reads its register. -/
theorem callPushesTheReturnAddress : Obligations.CallPushesTheReturnAddress := by
  intro s opA a ha hsp hpc
  have hreg : (s.setSp (s.sp - 1)).reg a = if a = 7 then s.sp - 1 else s.reg a :=
    (State.reg_setSp s a _).trans (if_congr eq_comm rfl rfl)
  refine ⟨Memory.write s.mem (s.sp - 1).toNat (BitVec.ofNat 8 (s.pc.toNat + 2)), ?_, fun addr => ?_⟩
  · rw [exec_call_names ha hsp hpc, hreg]
    rfl
  · rw [Memory.read_write, toNat_sub_one hsp]
    exact if_congr eq_comm rfl rfl

/-- Settles O26: below 0xFF the increment of RET does not raise, and the jump goes to the byte at the old stack pointer. -/
theorem retPopsTheProgramCounter : Obligations.RetPopsTheProgramCounter := by
  intro s hsp
  have hf : fatalOf .ret s = none := incrementFatal_lt hsp
  exact exec_of_no_fatal hf

/-! ### CALL, then RET -/

/-- A return address that fits a byte is the program counter it is jumped to by (R124, R125). -/
theorem toNat_zext9_ofNat {n : Nat} (h : n ≤ 255) : (zext9 (BitVec.ofNat 8 n)).toNat = n := by
  rw [zext9_toNat, BitVec.toNat_ofNat]
  exact Nat.mod_eq_of_lt (Nat.lt_succ_of_le h)

/-- Settles O58: by O25 the cell at the new stack pointer holds the return address, and by O26 RET goes to the byte in that cell and moves
the stack pointer back. -/
theorem callThenRetReturns : Obligations.CallThenRetReturns := by
  intro s t u v opA hA hsp hpc hcall husp hutop hret
  obtain ⟨m, hnext, hm⟩ := callPushesTheReturnAddress s opA ⟨opA.toNat, Nat.lt_succ_of_le hA⟩ rfl hsp hpc
  cases hcall.symm.trans hnext
  have hlow : u.sp = s.sp - 1 := husp.trans (State.sp_setSp s (s.sp - 1))
  have haddr : u.sp.toNat = s.sp.toNat - 1 := by rw [hlow, toNat_sub_one hsp]
  have htop : Memory.read u.mem u.sp.toNat = BitVec.ofNat 8 (s.pc.toNat + 2) := by
    rw [hutop, ← husp, haddr, hm, if_pos rfl]
  have hlt := s.sp.isLt
  cases hret.symm.trans (retPopsTheProgramCounter u (by omega))
  constructor
  · rw [htop]
    exact toNat_zext9_ofNat (by omega)
  · calc (u.setSp (u.sp + 1)).sp
      _ = u.sp + 1 := State.sp_setSp u _
      _ = s.sp := by rw [hlow, BitVec.sub_add_cancel]

end Sys2Proof.Machine
end

section
/-! PROOFS. Data moves and output: LDI and PRN by their one register operand, and the conditions LDI can raise. -/

namespace Sys2Proof.Machine

section

variable {opA : Byte} {a : RegIdx} (ha : opA.toNat = a.val) (s : State)

include ha

theorem exec_ldi_names (imm : Byte) : exec (.ldi opA imm) s = .next ((s.setReg a imm).advance 3) := by
  rw [exec_of_one_register rfl ha, completed, operandReg_names ha]

theorem exec_prn_names : exec (.prn opA) s = .next ((s.emit (s.reg a)).advance 2) := by
  rw [exec_of_one_register rfl ha, completed, operandReg_names ha]

end

theorem exec_ldi_bad {opA : Byte} (h8 : 8 ≤ opA.toNat) (imm : Byte) (s : State) :
    exec (.ldi opA imm) s = .next (raise (.invalidRegister opA) s) :=
  exec_of_fatal (invalidOperand_bad h8)

/-- Settles O18: LDI completes with one register write and validates its first operand byte alone; at 254 or 255 its immediate or its
register operand is beyond address 255. -/
theorem ldiSetsOneRegister : Obligations.LdiSetsOneRegister :=
  ⟨fun s _ imm _ ha => exec_ldi_names ha s imm,
    fun s _ imm hbad => ⟨_, _, exec_ldi_bad hbad imm s, rfl, rfl, rfl⟩,
    fun _ => stopsWith_of_two_operand_bytes_missing (by decide) (by decide),
    fun opA imm => decode_encode_append (.ldi opA imm) []⟩

/-- Settles O22: PRN completes with one value emitted, that of the register its operand names. -/
theorem prnAppendsOneValue : Obligations.PrnAppendsOneValue := fun s _ _ ha => exec_prn_names ha s

end Sys2Proof.Machine
end

section
/-! PROOFS. NOP and HLT: the effect of each wherever its one byte is fetched, and HLT as the only normal stop. -/

namespace Sys2Proof.Machine

/-- An instruction of one byte stands at the program counter exactly when that is inside memory and its cell is the opcode (R60). -/
theorem holdsAtPc_iff_of_one_byte {i : Instr} {s : State} (hone : i.operandBytes = []) :
    s.HoldsAtPc i ↔ s.pc.toNat ≤ 255 ∧ Memory.read s.mem s.pc.toNat = i.opcode := by
  refine ⟨State.HoldsAtPc.opcode, fun hop k v hv => ?_⟩
  rw [encode, hone] at hv
  cases k with
  | zero => exact Option.some.inj hv ▸ hop
  | succ k => cases hv

/-- Where an instruction of one byte is fetched, a step runs it. -/
theorem step_of_one_byte {i : Instr} {s : State} (hone : i.operandBytes = []) (hrun : s.run = .running)
    (hpc : s.pc.toNat ≤ 255) (hop : Memory.read s.mem s.pc.toNat = i.opcode) : step s = exec i s :=
  stepRunsTheEncodedInstruction s i hrun ((holdsAtPc_iff_of_one_byte hone).mpr ⟨hpc, hop⟩)

/-- Settles O13: NOP completes with an advance by 1, which from 255 leads to 256, where the next fetch raises at its first check. -/
theorem nopOnlyAdvances : Obligations.NopOnlyAdvances := by
  refine ⟨exec_nop, fun s hrun hpc hop => ?_⟩
  have hnext : (s.pc + 1).toNat = s.pc.toNat + 1 := advance_pc_toNat (n := 1) (Nat.succ_le_succ hpc)
  refine ⟨(step_of_one_byte (i := .nop) rfl hrun hpc hop).trans (exec_nop s), hnext, fun hlast => ?_⟩
  have hout : 255 < (s.pc + 1).toNat := by omega
  exact ⟨_, _, runawayProgramStops { s with pc := s.pc + 1 } hrun hout, rfl, rfl, rfl⟩

/-- Settles O14: HLT completes with the halt record written and nothing else. -/
theorem hltHalts : Obligations.HltHalts :=
  ⟨exec_hlt, fun s hrun hpc hop => (step_of_one_byte (i := .hlt) rfl hrun hpc hop).trans (exec_hlt s)⟩

/-! ### The normal stop -/

theorem Fatal.cause_ne_halt (f : Fatal) : f.cause ≠ .halt := by
  cases f <;> exact nofun

/-- A fatal condition is no normal stop (R150). -/
theorem not_finished_raise (f : Fatal) (s : State) : ¬ (raise f s).Finished := fun hfin => f.cause_ne_halt hfin.2

theorem not_finished_of_running {s : State} (hrun : s.run = .running) : ¬ s.Finished :=
  fun hfin => nomatch hrun.symm.trans hfin.1

/-- The one instruction that stops a RUNNING machine normally is HLT: every other one completes RUNNING or takes a fatal condition. -/
theorem eq_hlt_of_exec_finished {i : Instr} {s t : State} (hrun : s.run = .running) (h : exec i s = .next t) (hfin : t.Finished) :
    i = .hlt := by
  rcases exec_next_cases h with ⟨-, rfl⟩ | ⟨f, -, rfl⟩
  · by_contra hi
    exact not_finished_of_running ((completed_record hi s).1.trans hrun) hfin
  · exact absurd hfin (not_finished_raise f s)

/-- Settles O36: of the ways a step of a RUNNING machine can go, only an `exec` of HLT stops it normally, and HLT is its one byte. -/
theorem hltIsTheOnlyNormalStop : Obligations.HltIsTheOnlyNormalStop := by
  intro s t _ hrun h
  constructor
  · intro hfin
    rcases step_next_cases h with rfl | ⟨f, rfl⟩ | ⟨i, hi, he⟩
    · exact absurd hfin (not_finished_of_running hrun)
    · exact absurd hfin (not_finished_raise f s)
    · cases eq_hlt_of_exec_finished hrun he hfin
      exact hi.opcode
  · rintro ⟨hpc, hop⟩
    cases h.symm.trans (hltHalts.2 s hrun hpc hop)
    exact ⟨rfl, rfl⟩

end Sys2Proof.Machine
end

section
/-! PROOFS. Taking an exception: the condition a step reports, found along the order of R158, and how little it writes. -/

namespace Sys2Proof.Machine

/-- Settles O33: a step of a RUNNING machine that ends HALTED took a condition in its fetch, or ran an instruction that wrote the halt
record, and both write nothing else. -/
theorem fatalConditionsArePrecise : Obligations.FatalConditionsArePrecise := by
  rintro s t - hrun h ⟨hhalted, -⟩
  rcases step_next_cases h with rfl | ⟨f, rfl⟩ | ⟨i, -, he⟩
  · cases hrun.symm.trans hhalted
  · rfl
  · refine (exec_record he).resolve_left ?_
    rintro ⟨hkept, -⟩
    cases hrun.symm.trans (hkept.symm.trans hhalted)

/-! ### What a next state reports -/

/-- The next state records the condition `r`; where there is none, `P` holds. -/
def Reports (t : State) (r : Option Fatal) (P : Prop) : Prop := r.elim P fun f => t.cause = f.cause ∧ t.info = f.info

section

variable {t : State} {P : Prop}

@[simp] theorem reports_none : Reports t none P ↔ P := Iff.rfl

@[simp] theorem reports_some {f : Fatal} : Reports t (some f) P ↔ t.cause = f.cause ∧ t.info = f.info := Iff.rfl

/-- Of two conditions the first is the one reported (R158). -/
@[simp] theorem reports_or {r q : Option Fatal} : Reports t (r.or q) P ↔ Reports t r (Reports t q P) := by
  cases r <;> rfl

theorem reports_ite {c d : Prop} [Decidable c] [Decidable d] {f : Fatal} (hcd : c ↔ d) :
    Reports t (if c then some f else none) P ↔ if d then t.cause = f.cause ∧ t.info = f.info else P := by
  rw [if_congr hcd rfl rfl]
  split <;> rfl

@[simp] theorem reports_invalidOperand {b : Byte} :
    Reports t (invalidOperand b) P ↔ if 8 ≤ b.toNat then t.cause = .invalidRegister ∧ t.info = .int b.toNat else P := by
  rcases Nat.lt_or_ge b.toNat 8 with hb | hb
  · rw [invalidOperand_lt hb, if_neg hb.not_ge, reports_none]
  · rw [invalidOperand_bad hb, if_pos hb, reports_some, Fatal.cause, Fatal.info]

@[simp] theorem reports_decrementFatal {sp : Byte} :
    Reports t (decrementFatal sp) P ↔ if sp.toNat = 0 then t.cause = .outOfBounds ∧ t.info = .int (-1) else P :=
  reports_ite Iff.rfl

@[simp] theorem reports_incrementFatal {sp : Byte} :
    Reports t (incrementFatal sp) P ↔ if sp = 0xFF then t.cause = .outOfBounds ∧ t.info = .int 256 else P :=
  reports_ite (BitVec.toNat_inj (y := 0xFF))

/-- A CALL that is fetched whole stands at 254 or below, and at 254 its return address is 256 (R124). -/
theorem reports_returnFatal {pc : Pc} (hpc : pc.toNat ≤ 254) :
    Reports t (returnFatal pc) P ↔ if pc.toNat = 254 then t.cause = .outOfBounds ∧ t.info = .int 256 else P :=
  reports_ite hpc.ge_iff_eq

end

/-! ### The order of the conditions of an instruction -/

section

variable {i : Instr} {s t : State}

/-- An instruction reports its condition; without one HLT stops normally and every other instruction leaves the machine RUNNING. -/
theorem exec_reports (hrun : s.run = .running) (h : exec i s = .next t) :
    Reports t (fatalOf i s) (if i = .hlt then t.cause = .halt ∧ t.info = .int 0 else t.run = .running) := by
  rcases exec_next_cases h with ⟨hf, rfl⟩ | ⟨f, hf, rfl⟩ <;> rw [hf]
  · by_cases hi : i = .hlt
    · subst hi
      exact ⟨rfl, rfl⟩
    · exact (if_neg hi).mpr ((completed_record hi s).1.trans hrun)
  · exact ⟨rfl, rfl⟩

/-- The conditions of POP, whose operand byte 7 is the stack pointer (R113; the spec's decision D8). -/
theorem fatalOf_pop_eq (opA : Byte) (s : State) : fatalOf (.pop opA) s =
    (invalidOperand opA).or (incrementFatal (if opA.toNat = 7 then Memory.read s.mem s.sp.toNat else s.sp)) := by
  rcases Nat.lt_or_ge opA.toNat 8 with hA | hA
  · rw [fatalOf_pop (a := ⟨opA.toNat, hA⟩) rfl, invalidOperand_lt hA, Option.none_or]
    exact congrArg incrementFatal (if_congr Fin.ext_iff rfl rfl)
  · rw [fatalOf, invalidOperand_bad hA, Option.some_or, Option.some_or]

/-- What an instruction reports, told from the bytes at the program counter: each instruction meets the conditions of its `fatalOf` in
the order of R158, and no others (D5, log 9). -/
theorem exec_reports_in_order (hrun : s.run = .running) (hi : s.HoldsAtPc i) (h : exec i s = .next t) {op opA opB : Byte}
    (hop : Memory.read s.mem s.pc.toNat = op) (hA : Memory.read s.mem (s.pc.toNat + 1) = opA)
    (hB : Memory.read s.mem (s.pc.toNat + 2) = opB) :
    if 64 ≤ op.toNat ∧ 8 ≤ opA.toNat then t.cause = .invalidRegister ∧ t.info = .int opA.toNat
    else if op ∈ [0xA0, 0xA2, 0xA7] ∧ 8 ≤ opB.toNat then t.cause = .invalidRegister ∧ t.info = .int opB.toNat
    else if op ∈ [0x45, 0x50] ∧ s.sp.toNat = 0 then t.cause = .outOfBounds ∧ t.info = .int (-1)
    else if op = 0x46 ∧ (if opA.toNat = 7 then Memory.read s.mem s.sp.toNat else s.sp) = 0xFF then
      t.cause = .outOfBounds ∧ t.info = .int 256
    else if op = 0x11 ∧ s.sp = 0xFF then t.cause = .outOfBounds ∧ t.info = .int 256
    else if op = 0x50 ∧ s.pc.toNat = 254 then t.cause = .outOfBounds ∧ t.info = .int 256
    else if op = 0x01 then t.cause = .halt ∧ t.info = .int 0
    else t.run = .running := by
  have hrep := exec_reports hrun h
  obtain rfl : i.opcode = op := hi.opcode.2.symm.trans hop
  cases i with
  | nop | hlt | ret => simpa [fatalOf, Instr.opcode] using hrep
  | push b =>
    obtain rfl : b = opA := (hi 1 b rfl).2.symm.trans hA
    simpa [fatalOf, Instr.opcode] using hrep
  | pop b =>
    obtain rfl : b = opA := (hi 1 b rfl).2.symm.trans hA
    simpa [fatalOf_pop_eq, Instr.opcode] using hrep
  | call b =>
    obtain ⟨hfits, hb⟩ := hi 1 b rfl
    obtain rfl : b = opA := hb.symm.trans hA
    simpa [fatalOf, Instr.opcode, reports_returnFatal (Nat.le_of_succ_le_succ hfits)] using hrep
  | prn b | jmp b | jeq b | jne b | ldi b imm =>
    obtain rfl : b = opA := (hi 1 b rfl).2.symm.trans hA
    simpa [fatalOf, Instr.opcode] using hrep
  | add b c | mul b c | cmp b c =>
    obtain rfl : b = opA := (hi 1 b rfl).2.symm.trans hA
    obtain rfl : c = opB := (hi 2 c rfl).2.symm.trans hB
    simpa [fatalOf, Instr.opcode] using hrep

end

/-! ### The order of the conditions of a step -/

/-- Inside memory a defined opcode whose operand bytes lie inside memory too is fetched with them (R85). -/
theorem exists_fetch_ok {s : State} (hpc : s.pc.toNat ≤ 255) (hop : Memory.read s.mem s.pc.toNat ∈ definedOpcodes)
    (hfits : s.pc.toNat + (Memory.read s.mem s.pc.toNat).toNat / 64 ≤ 255) : ∃ i, fetch s = .ok i := by
  rcases decode_cases (bytesAtPc s) with ⟨i, _, hd, -⟩ | ⟨op, _, -, hbytes, hnone⟩ | ⟨hd, -⟩
  · exact ⟨i, fetch_of_decode_ok hpc hd⟩
  · obtain ⟨rfl, -⟩ := List.cons.inj ((bytesAtPc_eq_cons hpc).symm.trans hbytes)
    exact absurd hop (dispatch_eq_none_iff.mp hnone)
  · obtain ⟨i, more, hmore, henc⟩ := exists_encode_of_decode_short hd
    have hlen := congrArg List.length henc
    rw [List.length_append, length_bytesAtPc hpc] at hlen
    have hpos := List.length_pos_of_ne_nil hmore
    have hthree := length_encode_le i
    have hcount := length_encode i
    rw [bytesAtPc_eq_cons hpc] at henc
    rw [(List.cons.inj henc).1] at hcount
    omega

/-- Settles O32: the first four clauses are the conditions of a fetch in its order; where none applies an instruction is fetched, and the
other clauses are `exec_reports_in_order` of it. -/
theorem firstConditionIsReported : Obligations.FirstConditionIsReported := by
  intro s t hinv hrun h pc op opA opB top
  by_cases hrunaway : 255 < pc
  · rw [if_pos hrunaway]
    have hmax : s.pc.toNat = 256 := Nat.le_antisymm hinv.pc hrunaway
    cases h.symm.trans (runawayProgramStops s hrun hrunaway)
    exact ⟨rfl, congrArg (fun n : Nat => Info.int n) hmax⟩
  rw [if_neg hrunaway]
  have hpc : pc ≤ 255 := Nat.not_lt.mp hrunaway
  by_cases hillegal : op ∉ definedOpcodes
  · rw [if_pos hillegal]
    cases h.symm.trans (illegalInstructionStops s hrun hpc hillegal)
    exact ⟨rfl, rfl⟩
  rw [if_neg hillegal]
  have hop : op ∈ definedOpcodes := not_not.mp hillegal
  have hmissing (hlong : 255 < pc + op.toNat / 64) : t.cause = .outOfBounds ∧ t.info = .int 256 := by
    cases h.symm.trans (missingOperandByteStops s hrun hpc hop hlong)
    exact ⟨rfl, rfl⟩
  by_cases hone : 64 ≤ op.toNat ∧ pc = 255
  · rw [if_pos hone]
    exact hmissing (by omega)
  rw [if_neg hone]
  by_cases htwo : 128 ≤ op.toNat ∧ pc = 254
  · rw [if_pos htwo]
    exact hmissing (by omega)
  rw [if_neg htwo]
  have hmost : op.toNat < 192 := (by decide : ∀ op ∈ definedOpcodes, op.toNat < 192) op hop
  have hfits : pc + op.toNat / 64 ≤ 255 := by omega
  obtain ⟨i, hf⟩ := exists_fetch_ok hpc hop hfits
  have he : exec i s = .next t := (step_of_fetch_ok hrun hf).symm.trans h
  exact exec_reports_in_order hrun (fetch_eq_ok_iff.mp hf) he rfl rfl rfl

end Sys2Proof.Machine
end

section
/-! PROOFS. What the load of an image leaves in memory: the image at address 0, 0x00 elsewhere, nothing beyond the last address. -/

namespace Sys2Proof.Machine

/-- A load stores nothing beyond the last address: what does not fit is dropped (R181). -/
theorem Memory.read_loadImage_outside (image : List Byte) {a : Nat} (ha : Config.memSize ≤ a) :
    Memory.read (loadImage image) a = Config.memInit := by
  rw [loadImage, Memory.read_place, if_neg fun hin => Nat.not_lt.mpr ha hin.2, Memory.read_nil]

/-- Settles O38: inside memory a cell is the image's byte there, or 0x00 past the image's end; beyond memory every image reads alike. -/
theorem imageStandsAtAddressZero : Obligations.ImageStandsAtAddressZero := by
  intro image a
  rw [resetWith_mem]
  constructor
  · intro hmem himage
    rw [Memory.read_loadImage image hmem, List.getD_eq_getElem _ _ himage, List.getElem?_eq_getElem himage]
  · intro hrest
    rcases Nat.lt_or_ge a 256 with hmem | hmem
    · have hend : image.length ≤ a := hrest.resolve_right (Nat.not_le.mpr hmem)
      exact (Memory.read_loadImage image hmem).trans (List.getD_eq_default _ _ hend)
    · exact Memory.read_loadImage_outside image hmem

end Sys2Proof.Machine
end
